-- ==== Sys2Proof/Word.lean ====
section
/-! DEFINITION. The words of the port and of the wire, the bit, and the five delay classes (spec 00_scope R7, R9;
30_encoding R60, R62; 40_bit_level R109). -/

namespace Sys2Proof

/-- A 16-bit operation word, and the width of RESULT and STATUS (30_encoding R60; 10_state R26, R28). -/
abbrev Word := BitVec 16

/-- A byte of the wire (00_scope R9). -/
abbrev Byte := BitVec 8

/-- A nibble (00_scope R9). -/
abbrev Nibble := BitVec 4

/-- One bit: a latch, a wire level, a sample, or a one-bit operand; `true` is the spec's 1, `false` its 0. -/
abbrev Bit := Bool

/-- The delay classes K of `delay(K)` and of WAIT (40_bit_level R109). -/
inductive DelayClass where
  | bit
  | settle
  | cmd
  | clear
  | poweron
deriving DecidableEq, Repr

end Sys2Proof
end

