-- ==== Sys2Proof/Config.lean ====
section
/-! DEFINITION. The parameters of one block instance (00_scope R7; 10_state R29), and the free values: constants with no
body, of which nothing can be proved. -/

namespace Sys2Proof

/-- Where the four control bits stand in bits [3:0] of a transport byte (00_scope R7; 30_encoding R67; 92 D11). -/
structure BitMap where
  rsBit : Fin 4
  rwBit : Fin 4
  enBit : Fin 4
  blBit : Fin 4
deriving DecidableEq, Repr

/-- The parameters of one block instance, constants from construction on (00_scope R7; 10_state R29). Durations are in an
abstract time unit. -/
structure Config where
  /-- DEV_ADDR7. -/
  devAddr7 : BitVec 7
  /-- BACKLIGHT. -/
  backlight : Bit
  /-- The PCF8574 bit map. -/
  bitMap : BitMap
  /-- T_BIT. -/
  tBit : Nat
  /-- T_SETTLE. -/
  tSettle : Nat
  /-- T_CMD, which may be 0. -/
  tCmd : Nat
  /-- T_CLEAR. -/
  tClear : Nat
  /-- T_POWERON. -/
  tPoweron : Nat
  /-- DISPLAY_COLS. -/
  displayCols : Nat
deriving DecidableEq, Repr

/-- The durations of the default instance: OPEN in the spec (00_scope R7; 91 N4), so no value (log entry 3). -/
opaque Config.openDuration : DelayClass → Nat

/-- The display width of the default instance: OPEN in the spec (00_scope R7; 91 N5), so no value (log entry 3). -/
opaque Config.openDisplayCols : Nat

/-- The level a bus device leaves on SDA at the n-th free draw (00_scope R13; 93 U2): a FREE VALUE (log entry 2). -/
opaque Config.slaveSda : Nat → Bit

/-- Whether a reset moves SCL before SDA, at the n-th free draw (70_reset_and_hazards R191; 93 U3): a FREE VALUE
(log entry 5). -/
opaque Config.resetSclFirst : Nat → Bool

/-- DISPLAY_ROWS (00_scope R7). -/
def Config.displayRows : Nat := 2

/-- The default bit map (00_scope R7; 30_encoding R67). -/
def BitMap.default : BitMap := { rsBit := 0, rwBit := 1, enBit := 2, blBit := 3 }

/-- The default instance: the defaults of 00_scope R7, the OPEN parameters left open. -/
def Config.default : Config :=
  { devAddr7 := 0x27#7
    backlight := true
    bitMap := BitMap.default
    tBit := Config.openDuration .bit
    tSettle := Config.openDuration .settle
    tCmd := Config.openDuration .cmd
    tClear := Config.openDuration .clear
    tPoweron := Config.openDuration .poweron
    displayCols := Config.openDisplayCols }

/-- The bit map is a permutation of bits 0..3 (10_state R29). -/
abbrev BitMap.Legal (m : BitMap) : Prop :=
  m.rsBit ≠ m.rwBit ∧ m.rsBit ≠ m.enBit ∧ m.rsBit ≠ m.blBit ∧ m.rwBit ≠ m.enBit ∧ m.rwBit ≠ m.blBit ∧ m.enBit ≠ m.blBit

/-- The duration parameter a delay class names (40_bit_level R109). -/
def Config.duration (c : Config) : DelayClass → Nat
  | .bit => c.tBit
  | .settle => c.tSettle
  | .cmd => c.tCmd
  | .clear => c.tClear
  | .poweron => c.tPoweron

/-- The constraints on the clear delay, a premise on the parameters that no operation checks
(70_reset_and_hazards R203). -/
abbrev Config.ClearDominates (c : Config) : Prop :=
  c.tCmd < c.tClear ∧ 112 * c.tBit + 4 * c.tSettle < c.tClear

end Sys2Proof
end

