-- ==== Sys2Proof/Syntax.lean ====
section
/-! DEFINITION. The block operations: one constructor per row of spec/opcode_table.json (00_scope R3; 30_encoding R63, R74).
Every operand has exactly the width the encoding gives it, and the delay class is a name, so every term of `Instr` is a
legal operation; what can be ill-formed is a line of the assembler (WellFormed.lean). -/

namespace Sys2Proof

/-- A block operation (30_encoding R74, without `Illegal`, which is what `decode` refuses with). -/
inductive Instr where
  /-- I2C_START, 40_bit_level R100. -/
  | i2cStart
  /-- I2C_STOP, 40_bit_level R102. -/
  | i2cStop
  /-- I2C_WBIT b, 40_bit_level R104. -/
  | i2cWbit (b : Bit)
  /-- I2C_RBIT, 40_bit_level R106. -/
  | i2cRbit
  /-- I2C_WBYTE d, 41_byte_transfer R120. -/
  | i2cWbyte (d : Byte)
  /-- LCD_PULSE n, rs, 42_lcd_transport R130. -/
  | lcdPulse (n : Nibble) (rs : Bit)
  /-- LCD_CMD d, 42_lcd_transport R132. -/
  | lcdCmd (d : Byte)
  /-- LCD_DATA d, 42_lcd_transport R134. -/
  | lcdData (d : Byte)
  /-- WAIT K, 40_bit_level R108. -/
  | wait (k : DelayClass)
deriving DecidableEq, Repr

end Sys2Proof
end

