-- ==== Sys2Proof/Decode.lean ====
section
/-! DEFINITION. The decoder of the operation word, total and rejecting by name (30_encoding R60 to R64, R75), the encoder
(R72, R76), and the opcode map as data (R63). -/

namespace Sys2Proof

/-- Why a word is illegal (30_encoding R74). Not a hardware-visible code (91 N22). -/
inductive IllegalReason where
  /-- The opcode is 0x0 or 0x9 to 0xF. -/
  | badOpcode
  /-- A reserved bit of the word's format is 1. -/
  | reservedBitSet
  /-- A WAIT with k in 5 to 7. -/
  | badDelayClass
deriving DecidableEq, Repr

/-- `w[lo+len-1 : lo]`, an unsigned field of a word (00_scope R9; 30_encoding R62). -/
abbrev Word.field (w : Word) (lo len : Nat) : BitVec len := w.extractLsb' lo len

/-- The code k of a delay class (30_encoding R62; 40_bit_level R109). -/
def DelayClass.code : DelayClass → BitVec 3
  | .bit => 0
  | .settle => 1
  | .cmd => 2
  | .clear => 3
  | .poweron => 4

/-- The delay class of a code; 5, 6 and 7 are reserved (30_encoding R62). -/
def DelayClass.ofCode? (k : BitVec 3) : Option DelayClass :=
  if k = 0 then some .bit
  else if k = 1 then some .settle
  else if k = 2 then some .cmd
  else if k = 3 then some .clear
  else if k = 4 then some .poweron
  else none

/-- An operation whose reserved bits must be 0: `i` where they are, a refusal by name where one is 1 (30_encoding R64). -/
def unlessReserved (clear : Bool) (i : Instr) : Except IllegalReason Instr :=
  if clear then .ok i else .error .reservedBitSet

/-- The decoder of 30_encoding R75: the opcode first, then the reserved bits, then the delay class. -/
def decode (w : Word) : Except IllegalReason Instr :=
  let op := Word.field w 12 4
  if op = 0x1 then unlessReserved (Word.field w 0 12 == 0) .i2cStart
  else if op = 0x2 then unlessReserved (Word.field w 0 12 == 0) .i2cStop
  else if op = 0x3 then unlessReserved (Word.field w 1 11 == 0) (.i2cWbit (w.getLsbD 0))
  else if op = 0x4 then unlessReserved (Word.field w 0 12 == 0) .i2cRbit
  else if op = 0x5 then unlessReserved (Word.field w 8 4 == 0) (.i2cWbyte (Word.field w 0 8))
  else if op = 0x6 then
    unlessReserved (Word.field w 8 4 == 0 && Word.field w 1 3 == 0) (.lcdPulse (Word.field w 4 4) (w.getLsbD 0))
  else if op = 0x7 then
    unlessReserved (Word.field w 9 3 == 0)
      (if w.getLsbD 8 then .lcdData (Word.field w 0 8) else .lcdCmd (Word.field w 0 8))
  else if op = 0x8 then
    if Word.field w 3 9 ≠ 0 then .error .reservedBitSet
    else
      match DelayClass.ofCode? (Word.field w 0 3) with
      | some k => .ok (.wait k)
      | none => .error .badDelayClass
  else .error .badOpcode

/-- Whether a word is one of the legal words (30_encoding R63, R64). -/
def legal (w : Word) : Bool :=
  match decode w with
  | .ok _ => true
  | .error _ => false

/-- A bit as a word, in bit 0. -/
def bitWord (b : Bit) : Word := (BitVec.ofBool b).setWidth 16

/-- The word of an operation (30_encoding R61, R72). -/
def encode : Instr → Word
  | .i2cStart => 0x1000#16
  | .i2cStop => 0x2000#16
  | .i2cWbit b => 0x3000#16 ||| bitWord b
  | .i2cRbit => 0x4000#16
  | .i2cWbyte d => 0x5000#16 ||| d.setWidth 16
  | .lcdPulse n rs => 0x6000#16 ||| (n.setWidth 16 <<< 4) ||| bitWord rs
  | .lcdCmd d => 0x7000#16 ||| d.setWidth 16
  | .lcdData d => 0x7100#16 ||| d.setWidth 16
  | .wait k => 0x8000#16 ||| k.code.setWidth 16

/-- A row of the opcode map (30_encoding R63). -/
structure OpcodeRow where
  mnemonic : String
  pattern : Word
  mask : Word
deriving DecidableEq, Repr

/-- The opcode map of 30_encoding R63, one row per operation of spec/opcode_table.json, in the table's order. -/
def opcodeMap : List OpcodeRow :=
  [ { mnemonic := "I2C_START", pattern := 0x1000#16, mask := 0xFFFF#16 },
    { mnemonic := "I2C_STOP", pattern := 0x2000#16, mask := 0xFFFF#16 },
    { mnemonic := "I2C_WBIT", pattern := 0x3000#16, mask := 0xFFFE#16 },
    { mnemonic := "I2C_RBIT", pattern := 0x4000#16, mask := 0xFFFF#16 },
    { mnemonic := "I2C_WBYTE", pattern := 0x5000#16, mask := 0xFF00#16 },
    { mnemonic := "LCD_PULSE", pattern := 0x6000#16, mask := 0xFF0E#16 },
    { mnemonic := "LCD_CMD", pattern := 0x7000#16, mask := 0xFF00#16 },
    { mnemonic := "LCD_DATA", pattern := 0x7100#16, mask := 0xFF00#16 },
    { mnemonic := "WAIT", pattern := 0x8000#16, mask := 0xFFF8#16 } ]

/-- The place in `opcodeMap` of the row an operation belongs to. -/
def Instr.rowIndex : Instr → Nat
  | .i2cStart => 0
  | .i2cStop => 1
  | .i2cWbit _ => 2
  | .i2cRbit => 3
  | .i2cWbyte _ => 4
  | .lcdPulse _ _ => 5
  | .lcdCmd _ => 6
  | .lcdData _ => 7
  | .wait _ => 8

/-- `w` selects a row: its masked bits are the row's pattern and, on the WAIT row (the only one with pattern 0x8000), the
extra constraint `w[2:0] <= 4` holds (30_encoding R63). -/
def OpcodeRow.selects (r : OpcodeRow) (w : Word) : Bool :=
  (w &&& r.mask == r.pattern) && (r.pattern != 0x8000#16 || decide ((Word.field w 0 3).toNat ≤ 4))

/-- What the decoder reads from an instruction whose bits are `w`, as spec/opcode_table.json numbers them: the operation
word is one 16-bit value at the port (20_memory R47), so bits above `nbits` are 0 and bits above 15 are no part of it. -/
def decodeTableWord (nbits w : Nat) : Option Instr :=
  match decode (BitVec.ofNat 16 (w % 2 ^ nbits)) with
  | .ok i => some i
  | .error _ => none

end Sys2Proof
end

