-- ==== Sys2Proof/Machine/State.lean ====
section
/-! DEFINITION. The machine's state as plain data (10_state; 70_reset_and_hazards R190), its faults and refusals, and the
state right after reset. -/

namespace Sys2Proof.Machine

/-- A micro-action, one primitive of 00_scope R11, as it waits in the sequencer. -/
inductive MicroAction where
  /-- `SCL <- v`. -/
  | setScl (v : Bit)
  /-- `SDA <- v`. -/
  | setSda (v : Bit)
  /-- `delay(K)`. -/
  | delay (k : DelayClass)
  /-- `s <- sample(SDA)`. -/
  | sample
deriving DecidableEq, Repr

/-- An event of the trace (10_state R27): a micro-action that was executed, a sample with its value. -/
inductive Event where
  | setScl (v : Bit)
  | setSda (v : Bit)
  | delay (k : DelayClass)
  | sample (s : Bit)
deriving DecidableEq, Repr

/-- The state of the block (10_state), the inputs at its port and its pins, and two fields of the model's own. -/
structure State where
  /-- The configuration, constants of the instance (10_state R29). -/
  config : Config
  /-- `scl_out` (10_state R22). -/
  sclOut : Bit
  /-- `sda_out`, 0 drives the line low, 1 releases it (10_state R23). -/
  sdaOut : Bit
  /-- `seq`, the micro-actions of the operation in progress not yet done (10_state R21). -/
  seq : List MicroAction
  /-- `busy` (10_state R21). -/
  busy : Bool
  /-- `samples` of the operation in progress, in sampling order (10_state R25). -/
  samples : List Bit
  /-- `RESULT` (10_state R26). -/
  result : Word
  /-- The refusal mark with its recorded reason (10_state R30; 60_exceptions R172); the bit `refused` is `State.refused`. -/
  refusal : Option IllegalReason
  /-- The trace, model history since reset (10_state R27). -/
  trace : List Event
  /-- INPUT: the words the host has still to present; the head is `cmd`, and `cmd_valid` is 1 while there is one
  (10_state R33; 60_exceptions R185). -/
  stream : List Word
  /-- INPUT: the level of the reset input at the coming steps, head first, deasserted past the end (60_exceptions R185). -/
  resetIn : List Bool
  /-- INPUT: the levels `slave_sda` at the coming samples, head first; past the end each is a free value (00_scope R13). -/
  busIn : List Bit
  /-- MODEL'S OWN: how many free values were drawn; it indexes `Config.slaveSda` and `Config.resetSclFirst`. -/
  draws : Nat
  /-- MODEL'S OWN: the trace the last reset cut, ended by that reset's two latch writes in the order they happened
  (70_reset_and_hazards R191; 95_test_vectors V58). -/
  cutTrace : List Event
deriving DecidableEq, Repr

/-- Why the machine stops with a fault. The spec has no fault outcome (60_exceptions R171), and no run reaches this one. -/
inductive Fault where
  /-- Raised by `State.microStep` alone, in a state with `busy` set and nothing to do, which the spec's sequencer never holds
  (10_state R21, R35) and `Safety.Inv` rules out. SAFE: the model stops where the spec describes no state. -/
  | sequencerEmpty
deriving DecidableEq, Repr

/-- Why the machine gives no meaning. -/
inductive Refusal where
  /-- Raised by an arm of `exec` whose instruction has no meaning yet; no arm of this model. SAFE: the model stops. -/
  | notModelled (mnemonic : String)
  /-- Raised by `step` in a block that refused an illegal word (60_exceptions R172), where no reset is to come. SAFE: the model
  stops, and real hardware may do anything with such a word (93 U1). -/
  | illegalWord (reason : IllegalReason)
deriving DecidableEq, Repr

/-- What one step can answer. -/
abbrev Result := Host.Outcome State Fault Refusal

/-- The state right after reset of a default instance (70_reset_and_hazards R190): the released bus, an idle block, an empty
trace; nothing presented, no reset scheduled, no bus level given. -/
def State.reset : State :=
  { config := Config.default
    sclOut := true
    sdaOut := true
    seq := []
    busy := false
    samples := []
    result := 0x0000#16
    refusal := none
    trace := []
    stream := []
    resetIn := []
    busIn := []
    draws := 0
    cutTrace := [] }

end Sys2Proof.Machine
end

