-- ==== Sys2Proof/Machine/Flags.lean ====
section
/-! DEFINITION. The read-only registers: how RESULT is packed from the samples, its fields, STATUS and `ready`
(10_state R26, R28, R33). There is no other flag (10_state R31). -/

namespace Sys2Proof.Machine

/-- The NACK flag of a sample list: at least one sample was 1 (10_state R26). -/
def nackOf (samples : List Bit) : Bit := samples.any id

/-- The samples as a field of 6 bits, the first in bit 0 (10_state R26). -/
def packSamples : List Bit → BitVec 6
  | [] => 0
  | s :: rest => (packSamples rest <<< 1) ||| (BitVec.ofBool s).setWidth 6

/-- The value RESULT takes at completion (10_state R26): reserved [15:13], NACK [12], reserved [11], NSAMP [10:8],
reserved [7:6], SAMPLES [5:0]. -/
def packResult (samples : List Bit) : Word :=
  0#3 ++ BitVec.ofBool (nackOf samples) ++ 0#1 ++ BitVec.ofNat 3 samples.length ++ 0#2 ++ packSamples samples

/-- RESULT.SAMPLES. -/
def resultSamples (r : Word) : BitVec 6 := Word.field r 0 6

/-- RESULT.NSAMP. -/
def resultNsamp (r : Word) : BitVec 3 := Word.field r 8 3

/-- RESULT.NACK. -/
def resultNack (r : Word) : Bit := r.getLsbD 12

/-- The bit `refused` (10_state R30). -/
def State.refused (s : State) : Bit := s.refusal.isSome

/-- `ready = NOT busy AND NOT refused` (10_state R33). -/
def State.ready (s : State) : Bit := !s.busy && !s.refused

/-- STATUS: BUSY in bit 0, REFUSED in bit 1, the rest 0 (10_state R28). -/
def State.status (s : State) : Word := 0#14 ++ BitVec.ofBool s.refused ++ BitVec.ofBool s.busy

end Sys2Proof.Machine
end

