-- ==== Sys2Proof/Machine/Operands.lean ====
section
/-! DEFINITION. The operand forms: what the wire carries for an operand and the configuration (00_scope R8;
30_encoding R66 to R68), and the orders of bits and nibbles (20_memory R44 to R46). -/

namespace Sys2Proof.Machine

/-- `ADDR_BYTE = (DEV_ADDR7 << 1) | 0`: the 7-bit address and the write bit (00_scope R8; 20_memory R42; 30_encoding R66). -/
def addrByte (c : Config) : Byte := c.devAddr7 ++ 0#1

/-- `1 << p`, the mask of a control bit (00_scope R8). -/
def controlMask (p : Fin 4) : Byte := 1#8 <<< p.val

/-- RS (00_scope R8). -/
def rsMask (c : Config) : Byte := controlMask c.bitMap.rsBit

/-- RW (00_scope R8). -/
def rwMask (c : Config) : Byte := controlMask c.bitMap.rwBit

/-- EN (00_scope R8). -/
def enMask (c : Config) : Byte := controlMask c.bitMap.enBit

/-- BL (00_scope R8). -/
def blMask (c : Config) : Byte := controlMask c.bitMap.blBit

/-- `BLV = BL if BACKLIGHT = 1 else 0` (00_scope R8; 42_lcd_transport R137). -/
def blv (c : Config) : Byte := if c.backlight then blMask c else 0#8

/-- The transport-byte builder (30_encoding R68): the nibble in [7:4], BLV, EN and RS as asked, RW 0. -/
def tb (c : Config) (n : Nibble) (rs en : Bit) : Byte :=
  (n.setWidth 8 <<< 4) ||| blv c ||| (if en then enMask c else 0#8) ||| (if rs then rsMask c else 0#8)

/-- The high nibble `b[7:4]` (00_scope R9). -/
def highNibble (b : Byte) : Nibble := b.extractLsb' 4 4

/-- The low nibble `b[3:0]` (00_scope R9). -/
def lowNibble (b : Byte) : Nibble := b.extractLsb' 0 4

/-- The bits of a byte in wire order, most significant first (20_memory R44). -/
def bitsMsbFirst (d : Byte) : List Bit :=
  [d.getLsbD 7, d.getLsbD 6, d.getLsbD 5, d.getLsbD 4, d.getLsbD 3, d.getLsbD 2, d.getLsbD 1, d.getLsbD 0]

end Sys2Proof.Machine
end

