-- ==== Sys2Proof/Machine/Ops.lean ====
section
/-! DEFINITION. The named operations over the state: the bus environment's draw, one micro-action, the micro-step, the accept
step, the refusal of an illegal word (the one exceptional entry the spec has), and the reset (the one way out of it). -/

namespace Sys2Proof.Machine

/-- `slave_sda` at the next sample: the level given in `busIn`, else a free value (00_scope R13). -/
def State.slaveSda (s : State) : Bit :=
  match s.busIn with
  | level :: _ => level
  | [] => Config.slaveSda s.draws

/-- `sample(SDA)`: the wire level `sda_out AND slave_sda`, appended to the samples and to the trace (10_state R24, R35). -/
def State.sampleSda (s : State) : State :=
  let level := s.sdaOut && s.slaveSda
  { s with
    samples := s.samples ++ [level]
    trace := s.trace ++ [.sample level]
    busIn := s.busIn.tail
    draws := s.draws + 1 }

/-- One micro-action: its latch write, its wait or its sample, and its one event (00_scope R11; 10_state R35). The time a
delay takes is no part of the state (92 D25). -/
def State.perform (m : MicroAction) (s : State) : State :=
  match m with
  | .setScl v => { s with sclOut := v, trace := s.trace ++ [.setScl v] }
  | .setSda v => { s with sdaOut := v, trace := s.trace ++ [.setSda v] }
  | .delay k => { s with trace := s.trace ++ [.delay k] }
  | .sample => s.sampleSda

/-- The completion of an operation: `RESULT <- pack(samples); busy <- 0` (10_state R26, R35). -/
def State.complete (s : State) : State :=
  { s with result := packResult s.samples, busy := false }

/-- The micro-step of a busy block (10_state R35): the head of `seq`, and the completion when it was the last. -/
def State.microStep (s : State) : Result :=
  match s.seq with
  | [] => .fault .sequencerEmpty
  | m :: rest =>
    let t := State.perform m { s with seq := rest }
    .next (if rest.isEmpty then t.complete else t)

/-- What the accept step does to the block for a legal operation (10_state R34): its expansion is fixed, no event. -/
def State.load (expansion : List MicroAction) (s : State) : State :=
  { s with seq := expansion, samples := [], busy := true }

/-- The accept of an operation. A block that is not ready does not take it: the host holds the word and nothing changes
(10_state R33; 60_exceptions R171). -/
def State.accept (expansion : List MicroAction) (s : State) : Result :=
  if s.ready then .next (s.load expansion) else .next s

/-- The refusal of an illegal word (60_exceptions R172): the mark with its reason, and nothing else. -/
def State.refuse (r : IllegalReason) (s : State) : State := { s with refusal := some r }

/-- The two latch writes of a reset, in an order the spec leaves open (70_reset_and_hazards R191; 93 U3). -/
def State.resetWrites (s : State) : List Event :=
  if Config.resetSclFirst s.draws then [.setScl true, .setSda true] else [.setSda true, .setScl true]

/-- A reset (70_reset_and_hazards R190, R191): every block field at its reset value, the operation in progress discarded, the
configuration kept. The host's stream and the bus are not the block's and stay. -/
def State.doReset (s : State) : State :=
  { s with
    sclOut := true
    sdaOut := true
    seq := []
    busy := false
    samples := []
    result := 0x0000#16
    refusal := none
    trace := []
    draws := s.draws + 1
    cutTrace := s.trace ++ s.resetWrites }

/-- The reset input is asserted at this step. -/
def State.resetNow (s : State) : Bool := s.resetIn.headD false

/-- A reset is asserted at some step still to come. -/
def State.resetAhead (s : State) : Bool := s.resetIn.any id

/-- One step of the reset input's schedule passes. -/
def State.tick (s : State) : State := { s with resetIn := s.resetIn.tail }

/-- The word at the head of the stream is transferred (10_state R33). -/
def State.takeWord (s : State) : State := { s with stream := s.stream.tail }

/-- The block made ready, with no reset asserted at this step: what a word needs to be taken by the very next step. -/
def State.makeReady (s : State) : State :=
  { s with
    seq := []
    busy := false
    refusal := none
    resetIn := if s.resetNow then false :: s.resetIn.tail else s.resetIn }

/-- A word put at the head of the host's stream. -/
def State.present (w : Word) (s : State) : State := { s with stream := w :: s.stream }

end Sys2Proof.Machine
end

