-- ==== Sys2Proof/Machine/BitLevel.lean ====
section
/-! DEFINITION. The bit-level driver: the expansions and meanings of I2C_START, I2C_STOP, I2C_WBIT, I2C_RBIT and WAIT
(40_bit_level). -/

namespace Sys2Proof.Machine

/-- 40_bit_level R100. -/
def startSeq : List MicroAction :=
  [.setSda true, .setScl true, .delay .bit, .setSda false, .delay .bit, .setScl false]

/-- 40_bit_level R102. -/
def stopSeq : List MicroAction :=
  [.setScl false, .setSda false, .delay .bit, .setScl true, .delay .bit, .setSda true, .delay .bit]

/-- 40_bit_level R104; it does not first lower SCL (R105). -/
def wbitSeq (b : Bit) : List MicroAction :=
  [.setSda b, .delay .bit, .setScl true, .delay .bit, .setScl false]

/-- 40_bit_level R106; no delay around the sample (R107). -/
def rbitSeq : List MicroAction :=
  [.setSda true, .delay .bit, .setScl true, .sample, .setScl false]

/-- 40_bit_level R108. -/
def waitSeq (k : DelayClass) : List MicroAction := [.delay k]

/-- I2C_START (40_bit_level R100). -/
def execI2cStart (s : State) : Result := s.accept startSeq

/-- I2C_STOP (40_bit_level R102). -/
def execI2cStop (s : State) : Result := s.accept stopSeq

/-- I2C_WBIT b (40_bit_level R104). -/
def execI2cWbit (b : Bit) (s : State) : Result := s.accept (wbitSeq b)

/-- I2C_RBIT (40_bit_level R106). -/
def execI2cRbit (s : State) : Result := s.accept rbitSeq

/-- WAIT K (40_bit_level R108). -/
def execWait (k : DelayClass) (s : State) : Result := s.accept (waitSeq k)

end Sys2Proof.Machine
end

