-- ==== Sys2Proof/Machine/ByteTransfer.lean ====
section
/-! DEFINITION. The byte transmitter with its ACK read: the expansion and meaning of I2C_WBYTE (41_byte_transfer). -/

namespace Sys2Proof.Machine

/-- 41_byte_transfer R120: the eight bits, most significant first, then the ACK read. -/
def wbyteSeq (d : Byte) : List MicroAction := (bitsMsbFirst d).flatMap wbitSeq ++ rbitSeq

/-- I2C_WBYTE d (41_byte_transfer R120); a NACK changes nothing it does (R122). -/
def execI2cWbyte (d : Byte) (s : State) : Result := s.accept (wbyteSeq d)

end Sys2Proof.Machine
end

