-- ==== Sys2Proof/Machine/LcdTransport.lean ====
section
/-! DEFINITION. The PCF8574 nibble framer: the expansions and meanings of LCD_PULSE, LCD_CMD and LCD_DATA
(42_lcd_transport). -/

namespace Sys2Proof.Machine

/-- 42_lcd_transport R130: one transaction, the address byte, the byte with EN set, the same byte with EN cleared. -/
def pulseSeq (c : Config) (n : Nibble) (rs : Bit) : List MicroAction :=
  startSeq ++ wbyteSeq (addrByte c) ++ wbyteSeq (tb c n rs true) ++ [.delay .settle] ++ wbyteSeq (tb c n rs false)
    ++ [.delay .settle] ++ stopSeq

/-- 42_lcd_transport R132, R134: the high nibble as one pulse, then the low nibble. -/
def sendSeq (c : Config) (d : Byte) (rs : Bit) : List MicroAction :=
  pulseSeq c (highNibble d) rs ++ pulseSeq c (lowNibble d) rs

/-- LCD_PULSE n, rs (42_lcd_transport R130). -/
def execLcdPulse (n : Nibble) (rs : Bit) (s : State) : Result := s.accept (pulseSeq s.config n rs)

/-- LCD_CMD d (42_lcd_transport R132): register select 0. -/
def execLcdCmd (d : Byte) (s : State) : Result := s.accept (sendSeq s.config d false)

/-- LCD_DATA d (42_lcd_transport R134): register select 1. -/
def execLcdData (d : Byte) (s : State) : Result := s.accept (sendSeq s.config d true)

end Sys2Proof.Machine
end

