-- ==== Sys2Proof/Machine/Dispatch.lean ====
section
/-! DEFINITION. The accept of each operation, one arm per constructor (10_state R34; 30_encoding R63). -/

namespace Sys2Proof.Machine

def exec (i : Instr) (s : State) : Host.Outcome State Fault Refusal :=
  match i with
  | .i2cStart => Sys2Proof.Machine.execI2cStart s
  | .i2cStop => Sys2Proof.Machine.execI2cStop s
  | .i2cWbit b => Sys2Proof.Machine.execI2cWbit b s
  | .i2cRbit => Sys2Proof.Machine.execI2cRbit s
  | .i2cWbyte d => Sys2Proof.Machine.execI2cWbyte d s
  | .lcdPulse n rs => Sys2Proof.Machine.execLcdPulse n rs s
  | .lcdCmd d => Sys2Proof.Machine.execLcdCmd d s
  | .lcdData d => Sys2Proof.Machine.execLcdData d s
  | .wait k => Sys2Proof.Machine.execWait k s

end Sys2Proof.Machine
end

