-- ==== Sys2Proof/Machine/Step.lean ====
section
/-! DEFINITION. One step of the machine (60_exceptions R171, R175): a reset overrides all; else a micro-step of a busy block,
the hold of a refused one, or the accept of the word the host presents. -/

namespace Sys2Proof.Machine

/-- One step (10_state R34, R35; 60_exceptions R171, R172, R175; 70_reset_and_hazards R191). -/
def step (s : State) : Host.Outcome State Fault Refusal :=
  let t := s.tick
  if s.resetNow then .next t.doReset
  else if s.busy then t.microStep
  else
    match s.refusal with
    | some reason => if t.resetAhead then .next t else .refused (.illegalWord reason)
    | none =>
      match s.stream with
      | [] => .next t
      | w :: _ =>
        match decode w with
        | .ok i => exec i t.takeWord
        | .error reason => .next (t.takeWord.refuse reason)

/-- `s` with an instruction's bits, as spec/opcode_table.json numbers them, presented at the port of a ready block, so that
the very next step takes exactly that word (log entry 1). -/
def State.withFetchWord (s : State) (nbits w : Nat) : State :=
  s.makeReady.present (BitVec.ofNat 16 (w % 2 ^ nbits))

end Sys2Proof.Machine
end

