-- ==== Sys2Proof/Machine/Expand.lean ====
section
/-! DEFINITION. `expand(op)` of 10_state R34, and what an expansion leaves behind, read off the expansion: its samples and its
exit latches (30_encoding R77). Statements speak of operations through these. -/

namespace Sys2Proof.Machine

/-- `expand(op)`: the micro-sequence of an operation under a configuration (10_state R34). -/
def expand (c : Config) : Instr → List MicroAction
  | .i2cStart => startSeq
  | .i2cStop => stopSeq
  | .i2cWbit b => wbitSeq b
  | .i2cRbit => rbitSeq
  | .i2cWbyte d => wbyteSeq d
  | .lcdPulse n rs => pulseSeq c n rs
  | .lcdCmd d => sendSeq c d false
  | .lcdData d => sendSeq c d true
  | .wait k => waitSeq k

/-- The micro-actions of an operation (30_encoding R77). -/
def microCount : Instr → Nat
  | .i2cStart => 6
  | .i2cStop => 7
  | .i2cWbit _ => 5
  | .i2cRbit => 5
  | .i2cWbyte _ => 45
  | .lcdPulse _ _ => 150
  | .lcdCmd _ => 300
  | .lcdData _ => 300
  | .wait _ => 1

/-- The samples of an operation (30_encoding R77). -/
def sampleCount : Instr → Nat
  | .i2cStart => 0
  | .i2cStop => 0
  | .i2cWbit _ => 0
  | .i2cRbit => 1
  | .i2cWbyte _ => 1
  | .lcdPulse _ _ => 3
  | .lcdCmd _ => 6
  | .lcdData _ => 6
  | .wait _ => 0

/-- The exit latches `(c, d)` of an operation entered with the given latches (40_bit_level R101, R103, R104, R106, R108;
41_byte_transfer R120; 42_lcd_transport R130, R132, R134). -/
def exitLatches (entry : Bit × Bit) : Instr → Bit × Bit
  | .i2cStart => (false, false)
  | .i2cStop => (true, true)
  | .i2cWbit b => (false, b)
  | .i2cRbit => (false, true)
  | .i2cWbyte _ => (false, true)
  | .lcdPulse _ _ => (true, true)
  | .lcdCmd _ => (true, true)
  | .lcdData _ => (true, true)
  | .wait _ => entry

/-- How many samples a micro-sequence takes. -/
def samplesIn (ms : List MicroAction) : Nat := ms.countP (· == .sample)

/-- The events of a micro-sequence whose samples read, in order, the given levels (10_state R27); levels past the end of the
list read 1, the released line. -/
def eventsOf : List MicroAction → List Bit → List Event
  | [], _ => []
  | .setScl v :: ms, levels => .setScl v :: eventsOf ms levels
  | .setSda v :: ms, levels => .setSda v :: eventsOf ms levels
  | .delay k :: ms, levels => .delay k :: eventsOf ms levels
  | .sample :: ms, levels => .sample (levels.headD true) :: eventsOf ms levels.tail

/-- An event with the value of a sample left out: `Sample(s)` written as just `Sample` (42_lcd_transport R135). -/
def Event.action : Event → MicroAction
  | .setScl v => .setScl v
  | .setSda v => .setSda v
  | .delay k => .delay k
  | .sample _ => .sample

/-- The levels `slave_sda` of the next `n` samples from a state (00_scope R13). -/
def State.comingLevels : Nat → State → List Bit
  | 0, _ => []
  | n + 1, s => s.slaveSda :: State.comingLevels n { s with busIn := s.busIn.tail, draws := s.draws + 1 }

end Sys2Proof.Machine
end

