-- ==== Sys2Proof/Machine/Device.lean ====
section
/-! DEFINITION. The reference device of 60_exceptions R184, a PCF8574 backpack and an HD44780 in 4-bit mode, FOR THE OBSERVER
ONLY: no rule of the block reads it, and a claim that uses it names it. All of it is general knowledge, not the source's (log
entry 9). It watches the wires through the events of a trace. -/

namespace Sys2Proof.Machine

/-- Where the PCF8574 stands in a transaction. -/
inductive BusPhase where
  /-- Between STOP and START. -/
  | idle
  /-- The byte after START. -/
  | address
  /-- Addressed: every byte goes to the port. -/
  | selected
  /-- Another device is addressed. -/
  | ignored
deriving DecidableEq, Repr

/-- A byte the HD44780 received, with the register select that came with it. -/
structure Received where
  rs : Bit
  byte : Byte
deriving DecidableEq, Repr

/-- The controller's data interface: 4 bits wide, `half` a high nibble that waits for its low one; or its width and its nibble phase
unknown, as before the bring-up sequence (60_exceptions R184). -/
inductive Interface where
  | unknown
  | fourBit (half : Option Nibble)
deriving DecidableEq, Repr

/-- The device: the latches as it last saw them change, the transaction, the byte being shifted in, the port, the controller's
interface, the nibbles of a bring-up in progress still to come, how many nibbles were latched, the bytes received. -/
structure Device where
  address : BitVec 7
  bitMap : BitMap
  scl : Bit
  sda : Bit
  phase : BusPhase
  clocks : Nat
  shift : Byte
  port : Byte
  interface : Interface
  bringUp : List Nibble
  strobes : Nat
  received : List Received
deriving DecidableEq, Repr

/-- An idle device with its controller in 4-bit mode on a byte boundary, the bus released, its port all 0. -/
def Device.idle (address : BitVec 7) (bitMap : BitMap) : Device :=
  { address := address, bitMap := bitMap, scl := true, sda := true, phase := .idle, clocks := 0, shift := 0#8,
    port := 0#8, interface := .fourBit none, bringUp := [], strobes := 0, received := [] }

/-- The same before the bring-up sequence: the controller's interface is unknown (60_exceptions R184). -/
def Device.beforeBringUp (address : BitVec 7) (bitMap : BitMap) : Device :=
  { Device.idle address bitMap with interface := .unknown }

/-- The controller is in 4-bit mode and waits for a high nibble, in a bring-up too where one is in progress. -/
abbrev Device.OnByteBoundary (d : Device) : Prop := d.interface = .fourBit none ∧ d.bringUp.length % 2 = 0

/-- The byte shifted in is this device's write address. -/
def Device.addressed (d : Device) : Bool := d.shift == d.address ++ 0#1

/-- It pulls SDA low in the ACK bit of its address byte and of every data byte until STOP. -/
def Device.acks (d : Device) : Bool :=
  match d.phase with
  | .idle => false
  | .address => d.addressed
  | .selected => true
  | .ignored => false

/-- The level it leaves on SDA: it pulls low only in the ACK bit of a byte it acknowledges, from the fall of the eighth clock to the
fall of the ninth. -/
def Device.slaveSda (d : Device) : Bit := !((d.clocks == 9 || d.clocks == 8 && !d.scl) && d.acks)

/-- The level of the SDA wire, the block's latch AND what the device leaves (10_state R24). -/
def Device.wire (d : Device) : Bit := d.sda && d.slaveSda

/-- The first four nibbles of LCD_INIT, after which every later pair of nibbles is one byte in 4-bit mode
(43_lcd_command_interface R154). -/
def bringUpNibbles : List Nibble := [3#4, 3#4, 3#4, 2#4]

/-- What one latched nibble does to the interface, and the byte it completes, if any: a high nibble waits, a low one completes the
byte, and RS counts with the low nibble (log entry 9). What a nibble does where the width is unknown stays unknown. -/
def Interface.take : Interface → Nibble → Bit → Interface × List Received
  | .unknown, _, _ => (.unknown, [])
  | .fourBit none, n, _ => (.fourBit (some n), [])
  | .fourBit (some high), n, rs => (.fourBit none, [{ rs := rs, byte := high ++ n }])

/-- The nibbles of a bring-up still to come after one more nibble, which ends it where it is not the next one, or no command. -/
def bringUpAfter : List Nibble → Nibble → Bit → List Nibble
  | [], _, _ => []
  | next :: rest, n, rs => if n = next ∧ rs = false then rest else []

/-- The controller latches a nibble. The last of the bring-up's nibbles leaves it in 4-bit mode on a byte boundary, whatever its
width and phase were (43_lcd_command_interface R154; 70_reset_and_hazards R197). -/
def Device.latch (n : Nibble) (rs : Bit) (d : Device) : Device :=
  { d with
    interface := if d.bringUp = [n] ∧ rs = false then .fourBit none else (d.interface.take n rs).1
    bringUp := bringUpAfter d.bringUp n rs
    strobes := d.strobes + 1
    received := d.received ++ (d.interface.take n rs).2 }

/-- A port write. On the falling edge of EN the controller latches D7..D4. Of a port byte that clears EN and changes other outputs at
once, the controller takes D7..D4, RS and RW as the NEW byte has them; RW = 1 is no write and latches nothing (DESIGN CHOICES, log
entry 9: 60_exceptions R184 says only that it latches on the falling edge of EN). -/
def Device.writePort (b : Byte) (d : Device) : Device :=
  let en (p : Byte) := p.getLsbD d.bitMap.enBit.val
  let t := { d with port := b }
  if en d.port && !en b && !b.getLsbD d.bitMap.rwBit.val then
    t.latch (b.extractLsb' 4 4) (b.getLsbD d.bitMap.rsBit.val)
  else t

/-- The end of a byte's ninth clock: an address byte selects or not, a data byte goes to the port. -/
def Device.endByte (d : Device) : Device :=
  match d.phase with
  | .idle => d
  | .address => { d with phase := if d.addressed then .selected else .ignored, clocks := 0 }
  | .selected => Device.writePort d.shift { d with clocks := 0 }
  | .ignored => { d with clocks := 0 }

/-- SCL rises: a data bit is shifted in, or the ninth clock begins. -/
def Device.clockRise (d : Device) : Device :=
  match d.phase with
  | .idle => d
  | _ =>
    if d.clocks < 8 then
      { d with shift := (d.shift <<< 1) ||| (BitVec.ofBool d.wire).setWidth 8, clocks := d.clocks + 1 }
    else { d with clocks := d.clocks + 1 }

/-- SCL falls: after the ninth clock the byte is done. -/
def Device.clockFall (d : Device) : Device := if d.clocks == 9 then d.endByte else d

/-- The block's SDA latch changes. START and STOP are changes of the WIRE while SCL is high (00_scope R15; 10_state R24), so a device
that itself pulls SDA low sees neither. A repeated START takes a device, selected or not, back to the address byte, and after
another address it ignores the bytes that follow, where 60_exceptions R184 says "until STOP" and names no repeated START (DESIGN
CHOICE, log entry 9). -/
def Device.seeSda (v : Bit) (d : Device) : Device :=
  let t := { d with sda := v }
  if d.scl && d.wire && !t.wire then { t with phase := .address, clocks := 0 }
  else if d.scl && !d.wire && t.wire then { t with phase := .idle, clocks := 0 }
  else t

/-- What the device does on an event of the block. The power-on delay of LCD_INIT begins a bring-up, from which alone an unknown
interface is known again (43_lcd_command_interface R153, R154; log entry 9). -/
def Device.see (d : Device) : Event → Device
  | .setScl v =>
    if v && !d.scl then (Device.clockRise d |> fun t => { t with scl := true })
    else if !v && d.scl then (Device.clockFall d |> fun t => { t with scl := false })
    else d
  | .setSda v => d.seeSda v
  | .delay k => if k = .poweron then { d with bringUp := bringUpNibbles } else d
  | .sample _ => d

/-- What the device does on a list of events. -/
def Device.watch (d : Device) (es : List Event) : Device := es.foldl Device.see d

/-- The levels the device leaves at the samples of a micro-sequence that it watches, in order. -/
def Device.levelsFor : Device → List MicroAction → List Bit
  | _, [] => []
  | d, .setScl v :: ms => Device.levelsFor (d.see (.setScl v)) ms
  | d, .setSda v :: ms => Device.levelsFor (d.see (.setSda v)) ms
  | d, .delay k :: ms => Device.levelsFor (d.see (.delay k)) ms
  | d, .sample :: ms => d.slaveSda :: Device.levelsFor (d.see (.sample d.slaveSda)) ms

end Sys2Proof.Machine
end

