-- ==== Sys2Proof/WellFormed.lean ====
section
/-! DEFINITION. The lines of the assembler and which of them are well-formed (30_encoding R72, R73;
43_lcd_command_interface R150 to R157). A term of `Instr` is legal by its type; an operand out of range can stand only in a
source line, whose operands are plain numbers, and there it is an assembly error: the assembler never truncates. -/

namespace Sys2Proof

/-- A source line of the assembler: the nine operations (30_encoding R72), then the five pseudo-instructions (R73). -/
inductive AsmLine where
  | i2cStart
  | i2cStop
  | i2cWbit (b : Nat)
  | i2cRbit
  | i2cWbyte (d : Nat)
  | lcdPulse (n rs : Nat)
  | lcdCmd (d : Nat)
  | lcdData (d : Nat)
  | wait (k : DelayClass)
  | lcdCommand (c : Nat)
  | lcdClear
  | lcdInit
  | lcdSetCursor (row col : Nat)
  | lcdPrint (s : List Nat)
deriving DecidableEq, Repr

/-- Every operand is in its range: a bit in 0..1, a nibble in 0..15, a byte in 0..255 (30_encoding R72), a row in 0..1 and a
column in 0..63 (43_lcd_command_interface R155, R156; a column at or past DISPLAY_COLS is accepted), and every character of a
string is a byte (43_lcd_command_interface R157). -/
def AsmLine.wellFormed : AsmLine → Bool
  | .i2cStart => true
  | .i2cStop => true
  | .i2cWbit b => decide (b < 2)
  | .i2cRbit => true
  | .i2cWbyte d => decide (d < 256)
  | .lcdPulse n rs => decide (n < 16) && decide (rs < 2)
  | .lcdCmd d => decide (d < 256)
  | .lcdData d => decide (d < 256)
  | .wait _ => true
  | .lcdCommand c => decide (c < 256)
  | .lcdClear => true
  | .lcdInit => true
  | .lcdSetCursor row col => decide (row < Config.displayRows) && decide (col < 64)
  | .lcdPrint s => s.all fun ch => decide (ch < 256)

end Sys2Proof
end

