-- ==== Sys2Proof/Machine/Assembler.lean ====
section
/-! DEFINITION. The host layer: the assembler of 30_encoding R72 and the expansions of the pseudo-instructions
(30_encoding R73; 43_lcd_command_interface). It is software before the port, not part of the block. -/

namespace Sys2Proof.Machine

/-- `base(row)`: the set-cursor command of column 0 of a row (43_lcd_command_interface R155; 20_memory R43). -/
def cursorBase (row : Nat) : Nat := if row = 0 then 0x80 else 0xC0

/-- LCD_COMMAND c: the command, then WAIT CMD (43_lcd_command_interface R150). -/
def lcdCommandOps (c : Byte) : List Instr := [.lcdCmd c, .wait .cmd]

/-- LCD_CLEAR: command 0x01, then WAIT CLEAR (43_lcd_command_interface R152). -/
def lcdClearOps : List Instr := [.lcdCmd 0x01#8, .wait .clear]

/-- LCD_INIT, in this exact order (43_lcd_command_interface R153). -/
def lcdInitOps : List Instr :=
  [.wait .poweron] ++ lcdCommandOps 0x33#8 ++ lcdCommandOps 0x32#8 ++ lcdCommandOps 0x28#8 ++ lcdCommandOps 0x0C#8
    ++ lcdCommandOps 0x06#8 ++ lcdClearOps

/-- LCD_SETCURSOR row, col: the command `base(row) + col` (43_lcd_command_interface R155). -/
def lcdSetCursorOps (row col : Nat) : List Instr := lcdCommandOps (BitVec.ofNat 8 (cursorBase row + col))

/-- LCD_PRINT "s": one LCD_DATA for each character, no WAIT between (43_lcd_command_interface R157). -/
def lcdPrintOps (s : List Byte) : List Instr := s.map .lcdData

/-- The operations of a well-formed line, whose operands all fit (30_encoding R72, R73). -/
def AsmLine.operations : AsmLine → List Instr
  | .i2cStart => [.i2cStart]
  | .i2cStop => [.i2cStop]
  | .i2cWbit b => [.i2cWbit (b == 1)]
  | .i2cRbit => [.i2cRbit]
  | .i2cWbyte d => [.i2cWbyte (BitVec.ofNat 8 d)]
  | .lcdPulse n rs => [.lcdPulse (BitVec.ofNat 4 n) (rs == 1)]
  | .lcdCmd d => [.lcdCmd (BitVec.ofNat 8 d)]
  | .lcdData d => [.lcdData (BitVec.ofNat 8 d)]
  | .wait k => [.wait k]
  | .lcdCommand c => lcdCommandOps (BitVec.ofNat 8 c)
  | .lcdClear => lcdClearOps
  | .lcdInit => lcdInitOps
  | .lcdSetCursor row col => lcdSetCursorOps row col
  | .lcdPrint s => lcdPrintOps (s.map (BitVec.ofNat 8))

/-- The words of a line, or an assembly error (`none`) where an operand is out of range: the assembler never truncates
(30_encoding R72; 43_lcd_command_interface R156). -/
def assemble (l : AsmLine) : Option (List Word) :=
  if l.wellFormed then some ((AsmLine.operations l).map encode) else none

/-- The words of a program, or an assembly error where a line has one. -/
def assembleAll : List AsmLine → Option (List Word)
  | [] => some []
  | l :: ls =>
    match assemble l, assembleAll ls with
    | some ws, some rest => some (ws ++ rest)
    | _, _ => none

end Sys2Proof.Machine
end

