-- ==== Sys2Proof/Machine/SourceText.lean ====
section
/-! DEFINITION. The text of an assembler line (30_encoding R72): one mnemonic with its operands separated by commas, `;` starts
a comment, numbers in hexadecimal, decimal or binary, a character literal is its ASCII code, a string for LCD_PRINT. A tool's
form (92 D33), not hardware; log entry 10 names what R72 leaves open of it. -/

namespace Sys2Proof.Machine

/-- A token of a source line. -/
inductive Token where
  | name (cs : List Char)
  | number (n : Nat)
  | text (cs : List Nat)
  | comma
deriving DecidableEq, Repr

/-- The value of a digit. -/
def digitValue (c : Char) : Option Nat :=
  let n := c.toNat
  if 48 ≤ n ∧ n ≤ 57 then some (n - 48)
  else if 65 ≤ n ∧ n ≤ 70 then some (n - 55)
  else if 97 ≤ n ∧ n ≤ 102 then some (n - 87)
  else none

/-- The value of digits in a base. Every underscore after the first digit is skipped, several in a row and one at the end among
them, where 30_encoding R72 shows only a single one between digits (DESIGN CHOICE, log entry 10). -/
def digitsValue (base : Nat) : Nat → List Char → Option Nat
  | acc, [] => some acc
  | acc, c :: cs =>
    if c = '_' then digitsValue base acc cs
    else
      match digitValue c with
      | some d => if d < base then digitsValue base (acc * base + d) cs else none
      | none => none

/-- Digits in a base, the first of which stands (a number has at least one digit and starts with no underscore). -/
def digitsFrom (base : Nat) : List Char → Option Nat
  | [] => none
  | c :: cs => if c = '_' then none else digitsValue base 0 (c :: cs)

/-- A number: `0x..` hexadecimal, `0b..` binary, else decimal. -/
def numberValue : List Char → Option Nat
  | '0' :: 'x' :: cs => digitsFrom 16 cs
  | '0' :: 'b' :: cs => digitsFrom 2 cs
  | cs => digitsFrom 10 cs

/-- What a run of letters, digits and underscores is: a number if it starts with a digit, else a name. -/
def wordToken (cs : List Char) : Option Token :=
  match cs with
  | [] => none
  | c :: _ => if 48 ≤ c.toNat ∧ c.toNat ≤ 57 then (numberValue cs).map .number else some (.name cs)

/-- The letters a name or a number is made of. -/
def isWordChar (c : Char) : Bool := c.isAlphanum || c == '_'

/-- The ASCII code of a character; a character that has none is an error. -/
def asciiCode (c : Char) : Option Nat := if c.toNat < 128 then some c.toNat else none

/-- Where the reading of a line stands: between tokens, inside a word, inside a string, after the quote of a character
literal, or after its character (each with what it has read, last first). -/
inductive LexState where
  | between
  | word (acc : List Char)
  | string (acc : List Nat)
  | quote
  | quoted (code : Nat)
deriving DecidableEq, Repr

/-- The tokens of a line. Inside a string and as the character of a literal, `;` and `,` are plain characters that start no comment
and separate no operands, where 30_encoding R72 says only that `;` starts a comment. The character of a literal may be any ASCII
character, the quote itself among them: three quotes are 0x27, and two with nothing between are an error, where R72 and 92 D33 say
neither. A string ends at the next double quote, and may hold a single one (DESIGN CHOICES, log entry 10). -/
def tokens : LexState → List Char → Option (List Token)
  | .between, [] => some []
  | .word acc, [] => (wordToken acc.reverse).map fun t => [t]
  | .string _, [] => none
  | .quote, [] => none
  | .quoted _, [] => none
  | .between, c :: cs =>
    if c = ';' then some []
    else if c = ' ' ∨ c = '\t' then tokens .between cs
    else if c = ',' then (tokens .between cs).map fun ts => .comma :: ts
    else if c = '"' then tokens (.string []) cs
    else if c = '\'' then tokens .quote cs
    else if isWordChar c then tokens (.word [c]) cs
    else none
  | .word acc, c :: cs =>
    if isWordChar c then tokens (.word (c :: acc)) cs
    else
      match wordToken acc.reverse with
      | none => none
      | some t =>
        if c = ';' then some [t]
        else if c = ' ' ∨ c = '\t' then (tokens .between cs).map fun ts => t :: ts
        else if c = ',' then (tokens .between cs).map fun ts => t :: .comma :: ts
        else none
  | .string acc, c :: cs =>
    if c = '"' then (tokens .between cs).map fun ts => .text acc.reverse :: ts
    else
      match asciiCode c with
      | some n => tokens (.string (n :: acc)) cs
      | none => none
  | .quote, c :: cs =>
    match asciiCode c with
    | some n => tokens (.quoted n) cs
    | none => none
  | .quoted n, c :: cs => if c = '\'' then (tokens .between cs).map fun ts => .number n :: ts else none

/-- The delay class a WAIT names (30_encoding R72). -/
def delayClassNamed (cs : List Char) : Option DelayClass :=
  if cs = "BIT".toList then some .bit
  else if cs = "SETTLE".toList then some .settle
  else if cs = "CMD".toList then some .cmd
  else if cs = "CLEAR".toList then some .clear
  else if cs = "POWERON".toList then some .poweron
  else none

/-- A mnemonic with no operand. -/
def bareLine (m : List Char) : Option AsmLine :=
  if m = "I2C_START".toList then some .i2cStart
  else if m = "I2C_STOP".toList then some .i2cStop
  else if m = "I2C_RBIT".toList then some .i2cRbit
  else if m = "LCD_CLEAR".toList then some .lcdClear
  else if m = "LCD_INIT".toList then some .lcdInit
  else none

/-- A mnemonic with one number. -/
def numberLine (m : List Char) (n : Nat) : Option AsmLine :=
  if m = "I2C_WBIT".toList then some (.i2cWbit n)
  else if m = "I2C_WBYTE".toList then some (.i2cWbyte n)
  else if m = "LCD_CMD".toList then some (.lcdCmd n)
  else if m = "LCD_DATA".toList then some (.lcdData n)
  else if m = "LCD_COMMAND".toList then some (.lcdCommand n)
  else none

/-- A mnemonic with two numbers. -/
def pairLine (m : List Char) (a b : Nat) : Option AsmLine :=
  if m = "LCD_PULSE".toList then some (.lcdPulse a b)
  else if m = "LCD_SETCURSOR".toList then some (.lcdSetCursor a b)
  else none

/-- The line of a token list; an empty line or one with a comment only has none (`some none`), anything else that is no form
of R72 or R73 is an error. -/
def lineOfTokens : List Token → Option (Option AsmLine)
  | [] => some none
  | [.name m] => (bareLine m).map some
  | [.name m, .number n] => (numberLine m n).map some
  | [.name m, .number a, .comma, .number b] => (pairLine m a b).map some
  | [.name m, .name k] => if m = "WAIT".toList then (delayClassNamed k).map fun c => some (.wait c) else none
  | [.name m, .text s] => if m = "LCD_PRINT".toList then some (some (.lcdPrint s)) else none
  | _ => none

/-- The words of one line of text, or an assembly error (30_encoding R72). -/
def assembleText (line : List Char) : Option (List Word) :=
  match tokens .between line with
  | none => none
  | some ts =>
    match lineOfTokens ts with
    | none => none
    | some none => some []
    | some (some l) => assemble l

end Sys2Proof.Machine
end

