-- ==== Sys2Proof/Machine/Timing.lean ====
section
/-! DEFINITION. Lower bounds on durations (70_reset_and_hazards R207, R208; 00_scope R12): the sum of the delays. Timing
information only: no rule of the block reads it, and there is no upper bound (92 D13). -/

namespace Sys2Proof.Machine

/-- The least time a micro-action takes: `T_K` for `delay(K)`, nothing stated for the others (00_scope R12). -/
def MicroAction.minTime (c : Config) : MicroAction → Nat
  | .delay k => c.duration k
  | .setScl _ => 0
  | .setSda _ => 0
  | .sample => 0

/-- The least time a micro-sequence takes. -/
def minTime (c : Config) (ms : List MicroAction) : Nat := (ms.map (MicroAction.minTime c)).sum

/-- The least time of a trace, counted from its events. -/
def minTimeOfTrace (c : Config) (es : List Event) : Nat := minTime c (es.map Event.action)

/-- The table of minimum durations (70_reset_and_hazards R207). -/
def minDuration (c : Config) : Instr → Nat
  | .i2cStart => 2 * c.tBit
  | .i2cStop => 3 * c.tBit
  | .i2cWbit _ => 2 * c.tBit
  | .i2cRbit => c.tBit
  | .i2cWbyte _ => 17 * c.tBit
  | .lcdPulse _ _ => 56 * c.tBit + 2 * c.tSettle
  | .lcdCmd _ => 112 * c.tBit + 4 * c.tSettle
  | .lcdData _ => 112 * c.tBit + 4 * c.tSettle
  | .wait k => c.duration k

/-- The least time a stream of operations takes. -/
def minDurationAll (c : Config) (is : List Instr) : Nat := (is.map (minDuration c)).sum

/-- The delay classes of a micro-sequence, in order (30_encoding R77). -/
def delaysIn : List MicroAction → List DelayClass
  | [] => []
  | .delay k :: ms => k :: delaysIn ms
  | .setScl _ :: ms => delaysIn ms
  | .setSda _ :: ms => delaysIn ms
  | .sample :: ms => delaysIn ms

end Sys2Proof.Machine
end

