-- ==== Sys2Proof/Machine/Wire.lean ====
section
/-! DEFINITION. What the two wires show (10_state R24; 00_scope R15): wire levels, START and STOP conditions and clock edges,
read off a sequence of events. No rule of the block reads any of it. -/

namespace Sys2Proof.Machine

/-- `SCL_wire = scl_out AND slave_scl` (10_state R24). -/
def State.sclWire (s : State) (slaveScl : Bit) : Bit := s.sclOut && slaveScl

/-- `SDA_wire = sda_out AND slave_sda` (10_state R24). -/
def State.sdaWire (s : State) (slaveSda : Bit) : Bit := s.sdaOut && slaveSda

/-- A wire condition (00_scope R15). -/
inductive WireCondition where
  /-- SDA falls while SCL is high. -/
  | start
  /-- SDA rises while SCL is high. -/
  | stop
deriving DecidableEq, Repr

/-- The latches `(c, d)` of a state. -/
def State.latches (s : State) : Bit × Bit := (s.sclOut, s.sdaOut)

/-- The latches after an event. -/
def Event.latchesAfter (cd : Bit × Bit) : Event → Bit × Bit
  | .setScl v => (v, cd.2)
  | .setSda v => (cd.1, v)
  | .delay _ => cd
  | .sample _ => cd

/-- The latches after a list of events. -/
def latchesAfter (cd : Bit × Bit) (es : List Event) : Bit × Bit := es.foldl Event.latchesAfter cd

/-- The wire condition an event makes, the devices leaving both lines released (00_scope R15; log entry 9). -/
def Event.condition (cd : Bit × Bit) : Event → List WireCondition
  | .setSda v => if cd.1 && cd.2 && !v then [.start] else if cd.1 && !cd.2 && v then [.stop] else []
  | .setScl _ => []
  | .delay _ => []
  | .sample _ => []

/-- The wire conditions of a list of events, in order, from the given latches. -/
def conditionsOf (cd : Bit × Bit) : List Event → List WireCondition
  | [] => []
  | e :: es => e.condition cd ++ conditionsOf (e.latchesAfter cd) es

/-- How many rising edges of SCL a list of events makes from the given latches (41_byte_transfer R121). -/
def clockRises (cd : Bit × Bit) : List Event → Nat
  | [] => 0
  | e :: es => (if !cd.1 && (e.latchesAfter cd).1 then 1 else 0) + clockRises (e.latchesAfter cd) es

end Sys2Proof.Machine
end

