-- ==== Sys2Proof/Safety.lean ====
section
/-! DEFINITION. What claims about runs are stated in: the invariant of the block, what a completed operation leaves alone, and
the duties of the host (70_reset_and_hazards R196 to R199), which the block never checks. -/

namespace Sys2Proof.Safety

open Sys2Proof.Machine

/-- `n` steps of the machine, stopping at the first fault or refusal (`Host.Core.run` of `Sys2Proof.core`). -/
def run : Nat → State → Result
  | 0, s => .next s
  | n + 1, s =>
    match step s with
    | .next t => run n t
    | .fault f => .fault f
    | .refused r => .refused r

/-- No reset is asserted during the next `n` steps. -/
abbrev Quiet (n : Nat) (s : State) : Prop := ∀ b ∈ s.resetIn.take n, b = false

/-- The invariant of the block: what 10_state says its fields hold between steps. -/
structure Inv (s : State) : Prop where
  /-- `busy` is 1 exactly while something is left to do (10_state R21, R35). -/
  busy_iff_work : s.busy = true ↔ s.seq ≠ []
  /-- A refused block has no operation in progress (60_exceptions R172). -/
  busy_not_refused : s.busy = true → s.refusal = none
  /-- What is left is the tail of the expansion of a legal operation, what was done of it ends the trace, and `samples` is what
  it sampled (10_state R21, R25, R34, R35). -/
  in_progress : s.busy = true → ∃ i done before,
    expand s.config i = done ++ s.seq ∧ s.trace = before ++ eventsOf done s.samples ∧ s.samples.length = samplesIn done
  /-- `samples` holds at most 6 bits (10_state R25). -/
  samples_at_most_six : s.samples.length ≤ 6
  /-- RESULT is the packing of at most 6 samples (10_state R26). -/
  result_packed : ∃ samples : List Bit, samples.length ≤ 6 ∧ s.result = packResult samples
  /-- When no operation is in progress, RESULT holds the samples of the last completed one (10_state R26). -/
  idle_result : s.busy = false → s.result = packResult s.samples
  /-- The latches are what the trace wrote since the released bus of reset (10_state R22, R23, R27). -/
  latches_follow_trace : s.latches = latchesAfter (true, true) s.trace

/-- What an operation with `k` samples that took `n` micro-steps leaves when it completes, and all it leaves alone: from the
state `s` it was accepted in to the state `u` after it. -/
structure Completed (n k : Nat) (s u : State) : Prop where
  idle : u.busy = false
  seq : u.seq = []
  samples : u.samples = s.comingLevels k
  result : u.result = packResult (s.comingLevels k)
  config : u.config = s.config
  refusal : u.refusal = s.refusal
  stream : u.stream = s.stream
  resetIn : u.resetIn = s.resetIn.drop n
  busIn : u.busIn = s.busIn.drop k
  draws : u.draws = s.draws + k
  cutTrace : u.cutTrace = s.cutTrace

/-- What the accept of an operation leaves (10_state R34): something to do, no samples, `busy`; all else as it was. -/
def Accepted (s t : State) : Prop :=
  t.seq ≠ [] ∧ t = { s with seq := t.seq, samples := [], busy := true }

/-- The value `r` of RESULT says that the samples were `as`, the first in bit 0, with every reserved bit 0 (10_state R26). -/
structure ResultSays (r : Word) (as : List Bit) : Prop where
  nsamp : (Word.field r 8 3).toNat = as.length
  nack : r.getLsbD 12 = as.any id
  samples : ∀ k, k < 6 → r.getLsbD k = as.getD k false
  reserved : Word.field r 6 2 = 0 ∧ r.getLsbD 11 = false ∧ Word.field r 13 3 = 0

/-! The events of the bus forms, transcribed from 95_test_vectors ("Trace abbreviations") and not from the expansions. -/

/-- `ST`. -/
def stEvents : List Event :=
  [.setSda true, .setScl true, .delay .bit, .setSda false, .delay .bit, .setScl false]

/-- `SP`. -/
def spEvents : List Event :=
  [.setScl false, .setSda false, .delay .bit, .setScl true, .delay .bit, .setSda true, .delay .bit]

/-- `WB(x)`. -/
def wbEvents (x : Bit) : List Event := [.setSda x, .delay .bit, .setScl true, .delay .bit, .setScl false]

/-- `RB(s)`. -/
def rbEvents (s : Bit) : List Event := [.setSda true, .delay .bit, .setScl true, .sample s, .setScl false]

/-- `BY(x, s)`. -/
def byEvents (x : Byte) (s : Bit) : List Event :=
  wbEvents (x.getLsbD 7) ++ wbEvents (x.getLsbD 6) ++ wbEvents (x.getLsbD 5) ++ wbEvents (x.getLsbD 4)
    ++ wbEvents (x.getLsbD 3) ++ wbEvents (x.getLsbD 2) ++ wbEvents (x.getLsbD 1) ++ wbEvents (x.getLsbD 0) ++ rbEvents s

/-- The transaction `[a b c]`, its three ACK bits reading `a0`, `a1`, `a2`. -/
def transaction (a b c : Byte) (a0 a1 a2 : Bit) : List Event :=
  stEvents ++ byEvents a a0 ++ byEvents b a1 ++ [.delay .settle] ++ byEvents c a2 ++ [.delay .settle] ++ spEvents

/-- Bit and byte operations stand only between an I2C_START and the next I2C_STOP; an LCD operation closes its own transaction
(70_reset_and_hazards R196). `inside` says whether a transaction is open. A stream may end with one still open: R196 does not say
(DESIGN CHOICE, log entry 11). -/
def bitOpsInside : Bool → List Instr → Bool
  | _, [] => true
  | _, .i2cStart :: is => bitOpsInside true is
  | _, .i2cStop :: is => bitOpsInside false is
  | inside, .i2cWbit _ :: is => inside && bitOpsInside inside is
  | inside, .i2cRbit :: is => inside && bitOpsInside inside is
  | inside, .i2cWbyte _ :: is => inside && bitOpsInside inside is
  | _, .lcdPulse _ _ :: is => bitOpsInside false is
  | _, .lcdCmd _ :: is => bitOpsInside false is
  | _, .lcdData _ :: is => bitOpsInside false is
  | inside, .wait _ :: is => bitOpsInside inside is

/-- A host that sends a byte as eight I2C_WBIT follows it with one I2C_RBIT (70_reset_and_hazards R196). `sent` counts the write
bits since the last byte boundary. Any number of WAIT may stand among the nine operations, the place before the I2C_RBIT among
them, and a stream may end after fewer than eight write bits but not after eight: R196 does not say (DESIGN CHOICES, log entry
11). -/
def ackAfterEightBits : Nat → List Instr → Bool
  | sent, [] => sent != 8
  | sent, .i2cWbit _ :: is => sent != 8 && ackAfterEightBits (sent + 1) is
  | _, .i2cRbit :: is => ackAfterEightBits 0 is
  | sent, .wait _ :: is => ackAfterEightBits sent is
  | sent, .i2cStart :: is => sent != 8 && ackAfterEightBits 0 is
  | sent, .i2cStop :: is => sent != 8 && ackAfterEightBits 0 is
  | sent, .i2cWbyte _ :: is => sent != 8 && ackAfterEightBits 0 is
  | sent, .lcdPulse _ _ :: is => sent != 8 && ackAfterEightBits 0 is
  | sent, .lcdCmd _ :: is => sent != 8 && ackAfterEightBits 0 is
  | sent, .lcdData _ :: is => sent != 8 && ackAfterEightBits 0 is

/-- LCD_PULSE operations come in pairs, the second right after the first (70_reset_and_hazards R197). `half` says whether the
second is due. "Back to back" is read as nothing between the two, not even a WAIT, and a stream may not end between them (DESIGN
CHOICES, log entry 11). -/
def pulsesPaired : Bool → List Instr → Bool
  | half, [] => !half
  | half, .lcdPulse _ _ :: is => pulsesPaired (!half) is
  | half, .i2cStart :: is => !half && pulsesPaired false is
  | half, .i2cStop :: is => !half && pulsesPaired false is
  | half, .i2cWbit _ :: is => !half && pulsesPaired false is
  | half, .i2cRbit :: is => !half && pulsesPaired false is
  | half, .i2cWbyte _ :: is => !half && pulsesPaired false is
  | half, .lcdCmd _ :: is => !half && pulsesPaired false is
  | half, .lcdData _ :: is => !half && pulsesPaired false is
  | half, .wait _ :: is => !half && pulsesPaired false is

/-- The host starts with LCD_INIT, whole and in order (70_reset_and_hazards R193, R198). No operation at all may stand before it, a
WAIT or a raw I2C word neither, where R193 bars only LCD operations there (DESIGN CHOICE, log entry 11). -/
def startsWithInit (is : List Instr) : Bool := lcdInitOps.isPrefixOf is

/-- The commands of the clear delay class: clear, 0x01, and home, 0x02 and 0x03 (43_lcd_command_interface R151;
70_reset_and_hazards R203). -/
def clearClass (d : Byte) : Bool := d == 0x01#8 || d == 0x02#8 || d == 0x03#8

/-- The enable pulses of an LCD operation, each the nibble and the register select it carries; no other operation is one
(42_lcd_transport R130, R132, R134). -/
def pulsesOf : Instr → List (Nibble × Bit)
  | .lcdPulse n rs => [(n, rs)]
  | .lcdCmd d => [(highNibble d, false), (lowNibble d, false)]
  | .lcdData d => [(highNibble d, true), (lowNibble d, true)]
  | .i2cStart => []
  | .i2cStop => []
  | .i2cWbit _ => []
  | .i2cRbit => []
  | .i2cWbyte _ => []
  | .wait _ => []

/-- The operation is an LCD_CMD of a command of the clear class, whatever the nibble phase. -/
def sendsClearClass : Instr → Bool
  | .lcdCmd d => clearClass d
  | .lcdData _ => false
  | .lcdPulse _ _ => false
  | .i2cStart => false
  | .i2cStop => false
  | .i2cWbit _ => false
  | .i2cRbit => false
  | .i2cWbyte _ => false
  | .wait _ => false

/-- What a list of pulses leaves of the nibble phase (`half`, a high nibble that waits for its low one) and of the time owed to a
command of the clear class, or `none` where a pulse comes while some is owed (70_reset_and_hazards R197, R199, R203). -/
def afterPulses (c : Config) : Option Nibble × Nat → List (Nibble × Bit) → Option (Option Nibble × Nat)
  | st, [] => some st
  | (half, owed), (n, rs) :: ps =>
    if owed = 0 then
      match half with
      | none => afterPulses c (some n, 0) ps
      | some high => afterPulses c (none, if clearClass (high ++ n) ∧ rs = false then c.tClear else 0) ps
    else none

/-- At least T_CLEAR passes between a command of the clear class and the next LCD operation, counted by the least times of the
operations between (70_reset_and_hazards R199, R203): a command sent by LCD_CMD, whatever the nibble phase, and one that the
pulses of LCD operations make up as the phase pairs them (R197). LCD_INIT recovers the phase, from where it begins (R197). `half` is
the nibble phase, `owed` the time still to pass. Raw bit and byte operations are no LCD operations and count as time alone (log
entry 11); `clearWaitedOnWire` reads those too. -/
def clearWaited (c : Config) (half : Option Nibble) (owed : Nat) : List Instr → Bool
  | [] => true
  | i :: is =>
    let phase := if startsWithInit (i :: is) then none else half
    match pulsesOf i with
    | [] => clearWaited c phase (owed - minDuration c i) is
    | p :: ps =>
      match afterPulses c (phase, owed) (p :: ps) with
      | none => false
      | some (half', owed') => clearWaited c half' (if sendsClearClass i then c.tClear else owed') is

/-- The received byte is a command of the clear class. -/
def Received.clearClass (r : Received) : Bool := !r.rs && Safety.clearClass r.byte

/-- The duty of 70_reset_and_hazards R199 and R203 read off the wires by the reference device of 60_exceptions R184 (log entry 9),
and so for every form in which a nibble or a byte can be sent, raw bytes and raw bits among them: no operation strobes the
controller while time is owed, and one that completes a command of the clear class owes T_CLEAR and strobes it no more. A
controller whose interface is unknown may be strobed by a bring-up alone. A byte that a lost nibble phase makes of the nibbles of a
bring-up owes nothing, so a home 0x03 completed there may be strobed at once. A bring-up counts as in progress from the first nibble
3 with RS 0 after a power-on delay, even where the nibbles after it are none of a bring-up: the home that this nibble completes is
exempt too, where 70_reset_and_hazards R203 names no exception (DESIGN CHOICES, log entry 11). -/
def clearWaitedOnWire (c : Config) (dev : Device) (owed : Nat) : List Instr → Bool
  | [] => true
  | i :: is =>
    let after := dev.watch (eventsOf (expand c i) [])
    if after.strobes = dev.strobes then clearWaitedOnWire c after (owed - minDuration c i) is
    else if after.bringUp ≠ [] then owed == 0 && clearWaitedOnWire c after 0 is
    else if after.interface = .unknown then false
    else if (after.received.drop dev.received.length).any Received.clearClass then
      owed == 0 && decide (after.interface = .fourBit none) && clearWaitedOnWire c after c.tClear is
    else owed == 0 && clearWaitedOnWire c after 0 is

end Sys2Proof.Safety
end

