-- ==== Sys2Proof/Certificates/Slice0/Obligations.lean ====
section
/-! DEFINITION. The statements for the provers. Each docstring names the rule of spec/ it formalises. -/

open Sys2Proof Sys2Proof.Machine Sys2Proof.Safety

/-! ## Encoding -/

/-- A few words written out from the encoding tables decode to what they stand for (95_test_vectors V2 to V11a). -/
def Obligations.SampleWordsDecode : Prop :=
  decode 0x1000#16 = .ok .i2cStart ∧ decode 0x2000#16 = .ok .i2cStop ∧ decode 0x3001#16 = .ok (.i2cWbit true) ∧
  decode 0x4000#16 = .ok .i2cRbit ∧ decode 0x504E#16 = .ok (.i2cWbyte 0x4E#8) ∧
  decode 0x6041#16 = .ok (.lcdPulse 4#4 true) ∧ decode 0x7028#16 = .ok (.lcdCmd 0x28#8) ∧
  decode 0x7141#16 = .ok (.lcdData 0x41#8) ∧ decode 0x8003#16 = .ok (.wait .clear) ∧
  decode 0xFFFF#16 = .error .badOpcode ∧ decode 0x600F#16 = .error .reservedBitSet ∧
  decode 0x8005#16 = .error .badDelayClass

/-- `encode` is the inverse of `decode` on legal operations, and it is the word column of R72 (30_encoding R76, the
spec's own inference: "derived: from rule R61 and rule R75"). -/
def Obligations.EncodeInvertsDecode : Prop :=
  (∀ i, decode (encode i) = .ok i) ∧ (∀ w i, decode w = .ok i → encode i = w) ∧
  encode .i2cStart = 0x1000#16 ∧ encode .i2cStop = 0x2000#16 ∧ encode .i2cRbit = 0x4000#16 ∧
  (∀ b : Bit, (encode (.i2cWbit b)).toNat = 0x3000 + b.toNat) ∧
  (∀ d : Byte, (encode (.i2cWbyte d)).toNat = 0x5000 + d.toNat) ∧
  (∀ (n : Nibble) (rs : Bit), (encode (.lcdPulse n rs)).toNat = 0x6000 + n.toNat * 16 + rs.toNat) ∧
  (∀ d : Byte, (encode (.lcdCmd d)).toNat = 0x7000 + d.toNat) ∧
  (∀ d : Byte, (encode (.lcdData d)).toNat = 0x7100 + d.toNat) ∧
  encode (.wait .bit) = 0x8000#16 ∧ encode (.wait .settle) = 0x8001#16 ∧ encode (.wait .cmd) = 0x8002#16 ∧
  encode (.wait .clear) = 0x8003#16 ∧ encode (.wait .poweron) = 0x8004#16

/-- A word is legal exactly if a row of the opcode map selects it, no two rows select one word, and the operation it decodes
to belongs to that row (30_encoding R63). -/
def Obligations.LegalWordsMatchOneRow : Prop :=
  (∀ w, legal w = true ↔ ∃ r ∈ opcodeMap, r.selects w = true) ∧
  (∀ w, ∀ r ∈ opcodeMap, ∀ r' ∈ opcodeMap, r.selects w = true → r'.selects w = true → r = r') ∧
  (∀ w i, decode w = .ok i → ∃ r, opcodeMap[i.rowIndex]? = some r ∧ r.selects w = true)

/-- There are 810 legal words (30_encoding R63; 95_test_vectors V11b). -/
def Obligations.LegalWordCount : Prop :=
  ((List.range 65536).filter fun n => legal (BitVec.ofNat 16 n)).length = 810

/-- The three cases of an illegal word, each by its name, the opcode looked at first, then the reserved bits, then the delay
class (30_encoding R64, R75; 60_exceptions R175). -/
def Obligations.IllegalWordsNamed : Prop :=
  ∀ w : Word,
    (decode w = .error .badOpcode ↔ Word.field w 12 4 = 0 ∨ 9 ≤ (Word.field w 12 4).toNat) ∧
    (decode w = .error .reservedBitSet ↔
      ((Word.field w 12 4 = 1 ∨ Word.field w 12 4 = 2 ∨ Word.field w 12 4 = 4) ∧ Word.field w 0 12 ≠ 0) ∨
      (Word.field w 12 4 = 3 ∧ Word.field w 1 11 ≠ 0) ∨
      (Word.field w 12 4 = 5 ∧ Word.field w 8 4 ≠ 0) ∨
      (Word.field w 12 4 = 6 ∧ (Word.field w 8 4 ≠ 0 ∨ Word.field w 1 3 ≠ 0)) ∨
      (Word.field w 12 4 = 7 ∧ Word.field w 9 3 ≠ 0) ∨
      (Word.field w 12 4 = 8 ∧ Word.field w 3 9 ≠ 0)) ∧
    (decode w = .error .badDelayClass ↔
      Word.field w 12 4 = 8 ∧ Word.field w 3 9 = 0 ∧ 5 ≤ (Word.field w 0 3).toNat)

/-! ## The port, the accept step and the micro-step -/

/-- A step at a ready block runs the operation its word decodes to, in the state with the word taken and the reset schedule
passed on (10_state R33, R34). -/
def Obligations.StepRunsDecodedOperation : Prop :=
  ∀ (s : State) (w : Word) (rest : List Word) (i : Instr),
    s.resetNow = false → s.ready = true → s.stream = w :: rest → decode w = .ok i →
    step s = exec i { s with stream := rest, resetIn := s.resetIn.tail }

/-- A word placed by `withFetchWord` is what the very next step takes, in the block made ready (log entry 1). -/
def Obligations.PlacedWordRunsNext : Prop :=
  ∀ (s : State) (nbits w : Nat) (i : Instr), decodeTableWord nbits w = some i →
    step (s.withFetchWord nbits w) = exec i s.makeReady.tick ∧ s.makeReady.tick.ready = true ∧
    (s.ready = true → s.resetNow = false → s.seq = [] → s.makeReady = s)

/-- The accept step (10_state R34): a legal word loads its expansion, which is never empty, clears the samples and sets `busy`;
an illegal word is refused; neither makes an event. -/
def Obligations.AcceptStep : Prop :=
  ∀ (s : State) (w : Word) (rest : List Word),
    s.resetNow = false → s.busy = false → s.refused = false → s.stream = w :: rest →
    (∀ i, decode w = .ok i → expand s.config i ≠ [] ∧
      step s = .next { s with stream := rest, resetIn := s.resetIn.tail, seq := expand s.config i, samples := [],
                              busy := true }) ∧
    (∀ r, decode w = .error r →
      step s = .next { s with stream := rest, resetIn := s.resetIn.tail, refusal := some r })

/-- The host port (10_state R33): `ready` is NOT busy AND NOT refused; a word presented to a ready block is transferred; one
presented to a block that is not ready stays with the host, whose hold the completion of the operation lifts. -/
def Obligations.WordHeldUntilReady : Prop :=
  (∀ s : State, s.ready = (!s.busy && !s.refused)) ∧
  (∀ (s : State) (w : Word) (rest : List Word), s.ready = true → s.resetNow = false → s.stream = w :: rest →
    ∃ t, step s = .next t ∧ t.stream = rest) ∧
  (∀ s t : State, s.ready = false → step s = .next t → t.stream = s.stream) ∧
  (∀ (s : State) (m : MicroAction), s.busy = true → s.refused = false → s.seq = [m] → s.resetNow = false →
    ∃ t, step s = .next t ∧ t.ready = true)

/-- What `exec` answers in a block that is not ready, where the spec has no accept step: nothing changes. This is the model's own
choice (log entry 1). -/
def Obligations.ExecHeldChangesNothing : Prop :=
  ∀ (s : State) (i : Instr), s.ready = false → exec i s = .next s

/-- The micro-step (10_state R35): the head of `seq` leaves it and has its effect and its event; the last one packs RESULT and
clears `busy`; nothing else changes but the bus's draws and the passing of the reset schedule. -/
def Obligations.MicroStepPerformsHead : Prop :=
  ∀ (s : State) (m : MicroAction) (rest : List MicroAction),
    s.resetNow = false → s.busy = true → s.seq = m :: rest →
    ∃ t : State, step s = .next t ∧ t.seq = rest ∧
      (t.sclOut = match m with | .setScl v => v | _ => s.sclOut) ∧
      (t.sdaOut = match m with | .setSda v => v | _ => s.sdaOut) ∧
      (t.samples = match m with | .sample => s.samples ++ [s.sdaOut && s.slaveSda] | _ => s.samples) ∧
      (t.trace = s.trace ++ [match m with
        | .setScl v => .setScl v
        | .setSda v => .setSda v
        | .delay k => .delay k
        | .sample => .sample (s.sdaOut && s.slaveSda)]) ∧
      (rest = [] → t.busy = false ∧ t.result = packResult t.samples) ∧
      (rest ≠ [] → t.busy = true ∧ t.result = s.result) ∧
      t.config = s.config ∧ t.refusal = s.refusal ∧ t.stream = s.stream ∧ t.resetIn = s.resetIn.tail ∧
      t.cutTrace = s.cutTrace ∧
      (t.busIn = match m with | .sample => s.busIn.tail | _ => s.busIn) ∧
      (t.draws = match m with | .sample => s.draws + 1 | _ => s.draws)

/-! ## The bit-level driver -/

/-- I2C_START (40_bit_level R100): word 0x1000; from every entry state the six events, no sample, RESULT 0x0000, exit (0,0). -/
def Obligations.StartRunsItsExpansion : Prop :=
  decode 0x1000#16 = .ok .i2cStart ∧
  ∀ s : State, s.ready = true → Quiet 6 s →
    ∃ t u, exec .i2cStart s = .next t ∧ Accepted s t ∧ run 6 t = .next u ∧ Completed 6 0 s u ∧
      u.trace = s.trace ++
        [.setSda true, .setScl true, .delay .bit, .setSda false, .delay .bit, .setScl false] ∧
      u.result = 0x0000#16 ∧ u.latches = (false, false)

/-- The wire effect of I2C_START by entry state (40_bit_level R101, the spec's own inference from R100 and R15):
a START, after a STOP where entered from (1,0); conditions are read off the latches (log entry 9). -/
def Obligations.StartWireEffect : Prop :=
  ∀ s : State, s.ready = true → Quiet 6 s →
    ∃ t u es, exec .i2cStart s = .next t ∧ run 6 t = .next u ∧ u.trace = s.trace ++ es ∧
      u.latches = (false, false) ∧
      conditionsOf s.latches es = if s.latches = (true, false) then [.stop, .start] else [.start]

/-- I2C_STOP (40_bit_level R102): word 0x2000; the seven events, no sample, RESULT 0x0000, exit (1,1). -/
def Obligations.StopRunsItsExpansion : Prop :=
  decode 0x2000#16 = .ok .i2cStop ∧
  ∀ s : State, s.ready = true → Quiet 7 s →
    ∃ t u, exec .i2cStop s = .next t ∧ Accepted s t ∧ run 7 t = .next u ∧ Completed 7 0 s u ∧
      u.trace = s.trace ++
        [.setScl false, .setSda false, .delay .bit, .setScl true, .delay .bit, .setSda true, .delay .bit] ∧
      u.result = 0x0000#16 ∧ u.latches = (true, true)

/-- The wire effect of I2C_STOP by entry state (40_bit_level R103, the spec's own inference from R102 and R15):
one STOP and nothing else, from every entry state, and one rise of SCL; conditions are read off the latches (log entry 9). -/
def Obligations.StopWireEffect : Prop :=
  ∀ s : State, s.ready = true → Quiet 7 s →
    ∃ t u es, exec .i2cStop s = .next t ∧ run 7 t = .next u ∧ u.trace = s.trace ++ es ∧
      u.latches = (true, true) ∧ conditionsOf s.latches es = [.stop] ∧ clockRises s.latches es = 1

/-- I2C_WBIT b (40_bit_level R104): word 0x3000 | b; the five events, no sample, RESULT 0x0000, exit (0, b); whatever the
devices do on SDA. -/
def Obligations.WriteBitRunsItsExpansion : Prop :=
  ∀ b : Bit, decode (0x3000#16 ||| (BitVec.ofBool b).setWidth 16) = .ok (.i2cWbit b) ∧
  ∀ s : State, s.ready = true → Quiet 5 s →
    ∃ t u, exec (.i2cWbit b) s = .next t ∧ Accepted s t ∧ run 5 t = .next u ∧ Completed 5 0 s u ∧
      u.trace = s.trace ++ [.setSda b, .delay .bit, .setScl true, .delay .bit, .setScl false] ∧
      u.result = 0x0000#16 ∧ u.latches = (false, b)

/-- I2C_WBIT entered with SCL high makes a wire condition where SDA changes, a START for 1 to 0 and a STOP for 0 to 1; entered
with SCL low it makes none (40_bit_level R105; 00_scope R15; log entry 9). -/
def Obligations.WriteBitWireEffect : Prop :=
  ∀ (b : Bit) (s : State), s.ready = true → Quiet 5 s →
    ∃ t u es, exec (.i2cWbit b) s = .next t ∧ run 5 t = .next u ∧ u.trace = s.trace ++ es ∧
      conditionsOf s.latches es =
        if s.sclOut = true ∧ s.sdaOut = true ∧ b = false then [.start]
        else if s.sclOut = true ∧ s.sdaOut = false ∧ b = true then [.stop] else []

/-- I2C_RBIT (40_bit_level R106): word 0x4000; the five events with no delay around the sample, the sampled bit `slave_sda`
in RESULT (0x0100 or 0x1101), exit (0,1). -/
def Obligations.ReadBitSamplesSlave : Prop :=
  decode 0x4000#16 = .ok .i2cRbit ∧
  ∀ s : State, s.ready = true → Quiet 5 s →
    ∃ t u, exec .i2cRbit s = .next t ∧ Accepted s t ∧ run 5 t = .next u ∧ Completed 5 1 s u ∧
      u.trace = s.trace ++ [.setSda true, .delay .bit, .setScl true, .sample s.slaveSda, .setScl false] ∧
      ResultSays u.result [s.slaveSda] ∧ u.result = (if s.slaveSda then 0x1101#16 else 0x0100#16) ∧
      u.latches = (false, true)

/-- WAIT K (40_bit_level R108): word 0x8000 | k; the one event `Delay(K)`, latches unchanged, RESULT 0x0000. -/
def Obligations.WaitOnlyDelays : Prop :=
  ∀ k : DelayClass, decode (0x8000#16 ||| k.code.setWidth 16) = .ok (.wait k) ∧
  ∀ s : State, s.ready = true → Quiet 1 s →
    ∃ t u, exec (.wait k) s = .next t ∧ Accepted s t ∧ run 1 t = .next u ∧ Completed 1 0 s u ∧
      u.trace = s.trace ++ [.delay k] ∧ u.result = 0x0000#16 ∧ u.latches = s.latches

/-! ## The byte transmitter -/

/-- I2C_WBYTE d (41_byte_transfer R120): word 0x5000 | d; eight write bits, MSB first, then one read bit whose sample is the ACK
in RESULT, exit (0,1). -/
def Obligations.WriteByteSendsMsbFirst : Prop :=
  ∀ d : Byte, decode (0x5000#16 ||| d.setWidth 16) = .ok (.i2cWbyte d) ∧
  ∀ s : State, s.ready = true → Quiet 45 s →
    ∃ t u, exec (.i2cWbyte d) s = .next t ∧ Accepted s t ∧ run 45 t = .next u ∧ Completed 45 1 s u ∧
      u.trace = s.trace ++ byEvents d s.slaveSda ∧
      ResultSays u.result [s.slaveSda] ∧ u.result = (if s.slaveSda then 0x1101#16 else 0x0100#16) ∧
      u.latches = (false, true)

/-- I2C_WBYTE entered with SCL low makes exactly 9 rising edges of SCL (41_byte_transfer R121, the spec's own inference from R120;
entered with SCL high the first `SetSCL(1)` is no edge, 40_bit_level R105) and no wire condition (00_scope R15, 40_bit_level R105;
read off the block's latches, every device leaving the lines released: DEDUCED, log entry 9). -/
def Obligations.WriteByteNineClocks : Prop :=
  ∀ (d : Byte) (s : State), s.ready = true → Quiet 45 s → s.sclOut = false →
    ∃ t u es, exec (.i2cWbyte d) s = .next t ∧ run 45 t = .next u ∧ u.trace = s.trace ++ es ∧
      clockRises s.latches es = 9 ∧ conditionsOf s.latches es = []

/-! ## The LCD transport -/

/-- LCD_PULSE n, rs (42_lcd_transport R130): word 0x6000 | n<<4 | rs; one transaction of the address byte, the byte with EN set
and the byte with EN cleared; the three ACKs in RESULT, none acted on; exit (1,1). -/
def Obligations.PulseSendsOneTransaction : Prop :=
  ∀ (n : Nibble) (rs : Bit),
  decode (0x6000#16 ||| (n.setWidth 16 <<< 4) ||| (BitVec.ofBool rs).setWidth 16) = .ok (.lcdPulse n rs) ∧
  ∀ (s : State) (a0 a1 a2 : Bit), s.ready = true → Quiet 150 s → s.comingLevels 3 = [a0, a1, a2] →
    ∃ t u, exec (.lcdPulse n rs) s = .next t ∧ Accepted s t ∧ run 150 t = .next u ∧ Completed 150 3 s u ∧
      u.trace = s.trace ++
        transaction (addrByte s.config) (tb s.config n rs true) (tb s.config n rs false) a0 a1 a2 ∧
      ResultSays u.result [a0, a1, a2] ∧ u.latches = (true, true)

/-- LCD_CMD d (42_lcd_transport R132): word 0x7000 | d; the high nibble as one pulse, then the low nibble, RS 0; six ACKs in
RESULT; exit (1,1). -/
def Obligations.CommandSendsHighThenLow : Prop :=
  ∀ d : Byte, decode (0x7000#16 ||| d.setWidth 16) = .ok (.lcdCmd d) ∧
  ∀ (s : State) (a0 a1 a2 a3 a4 a5 : Bit), s.ready = true → Quiet 300 s →
    s.comingLevels 6 = [a0, a1, a2, a3, a4, a5] →
    ∃ t u, exec (.lcdCmd d) s = .next t ∧ Accepted s t ∧ run 300 t = .next u ∧ Completed 300 6 s u ∧
      u.trace = s.trace ++
        transaction (addrByte s.config) (tb s.config (d.extractLsb' 4 4) false true)
          (tb s.config (d.extractLsb' 4 4) false false) a0 a1 a2 ++
        transaction (addrByte s.config) (tb s.config (d.extractLsb' 0 4) false true)
          (tb s.config (d.extractLsb' 0 4) false false) a3 a4 a5 ∧
      ResultSays u.result [a0, a1, a2, a3, a4, a5] ∧ u.latches = (true, true)

/-- LCD_DATA d (42_lcd_transport R134): word 0x7100 | d; as LCD_CMD with RS 1 in every transport byte. -/
def Obligations.DataSendsHighThenLow : Prop :=
  ∀ d : Byte, decode (0x7100#16 ||| d.setWidth 16) = .ok (.lcdData d) ∧
  ∀ (s : State) (a0 a1 a2 a3 a4 a5 : Bit), s.ready = true → Quiet 300 s →
    s.comingLevels 6 = [a0, a1, a2, a3, a4, a5] →
    ∃ t u, exec (.lcdData d) s = .next t ∧ Accepted s t ∧ run 300 t = .next u ∧ Completed 300 6 s u ∧
      u.trace = s.trace ++
        transaction (addrByte s.config) (tb s.config (d.extractLsb' 4 4) true true)
          (tb s.config (d.extractLsb' 4 4) true false) a0 a1 a2 ++
        transaction (addrByte s.config) (tb s.config (d.extractLsb' 0 4) true true)
          (tb s.config (d.extractLsb' 0 4) true false) a3 a4 a5 ∧
      ResultSays u.result [a0, a1, a2, a3, a4, a5] ∧ u.latches = (true, true)

/-- The address byte (30_encoding R66; 00_scope R8; 20_memory R42): bits [7:1] are DEV_ADDR7 and bit 0 is 0; 0x4E at the
default; every enable pulse transfers it first. -/
def Obligations.AddressByteIsWriteAddress : Prop :=
  (∀ c : Config, (addrByte c).extractLsb' 1 7 = c.devAddr7 ∧ (addrByte c).getLsbD 0 = false ∧
    (addrByte c).toNat = 2 * c.devAddr7.toNat) ∧
  addrByte Config.default = 0x4E#8 ∧
  ∀ (c : Config) (n : Nibble) (rs : Bit), ∃ rest, pulseSeq c n rs = startSeq ++ wbyteSeq (addrByte c) ++ rest

/-- The transport byte under any legal bit map (30_encoding R67, R68; 42_lcd_transport R137): the nibble in [7:4], BL as
BACKLIGHT, EN and RS as asked, RW 0. -/
def Obligations.TransportByteFields : Prop :=
  ∀ (c : Config) (n : Nibble) (rs en : Bit), c.bitMap.Legal →
    (tb c n rs en).extractLsb' 4 4 = n ∧ (tb c n rs en).getLsbD c.bitMap.rwBit.val = false ∧
    (tb c n rs en).getLsbD c.bitMap.blBit.val = c.backlight ∧ (tb c n rs en).getLsbD c.bitMap.enBit.val = en ∧
    (tb c n rs en).getLsbD c.bitMap.rsBit.val = rs

/-- The six transport bytes of a send in closed form (42_lcd_transport R133, the spec's own inference from R130, R132,
R134 and R68), for every configuration. -/
def Obligations.SendBytesClosedForm : Prop :=
  ∀ (c : Config) (d : Byte) (rs : Bit),
    let r : Byte := if rs then rsMask c else 0#8
    sendSeq c d rs =
      startSeq ++ wbyteSeq (c.devAddr7.setWidth 8 <<< 1) ++ wbyteSeq ((d &&& 0xF0#8) ||| blv c ||| enMask c ||| r) ++
        [.delay .settle] ++ wbyteSeq ((d &&& 0xF0#8) ||| blv c ||| r) ++ [.delay .settle] ++ stopSeq ++
      (startSeq ++ wbyteSeq (c.devAddr7.setWidth 8 <<< 1) ++
        wbyteSeq (((d <<< 4) &&& 0xF0#8) ||| blv c ||| enMask c ||| r) ++ [.delay .settle] ++
        wbyteSeq (((d <<< 4) &&& 0xF0#8) ||| blv c ||| r) ++ [.delay .settle] ++ stopSeq)

/-- Counting the wire of one LCD_CMD or LCD_DATA that starts from the released bus: two STARTs, two STOPs, in turn, and 56
rising edges of SCL, 54 of the six bytes and 2 of the STOPs (42_lcd_transport R133, the spec's own inference; 00_scope R15;
95_test_vectors, LCD transport; log entry 9). -/
def Obligations.SendMakesTwoTransactions : Prop :=
  ∀ (d : Byte) (i : Instr) (s : State), (i = .lcdCmd d ∨ i = .lcdData d) → s.ready = true → Quiet 300 s →
    s.latches = (true, true) →
    ∃ t u es, exec i s = .next t ∧ run 300 t = .next u ∧ u.trace = s.trace ++ es ∧
      conditionsOf s.latches es = [.start, .stop, .start, .stop] ∧ clockRises s.latches es = 56

/-! ## Whole operations -/

/-- Samples, micro-actions and delays of every operation under every configuration (30_encoding R77, the spec's own inference
from the expansions). -/
def Obligations.ExpansionCounts : Prop :=
  ∀ (c : Config) (i : Instr),
    (expand c i).length = microCount i ∧ samplesIn (expand c i) = sampleCount i ∧
    (match i with
      | .wait k => delaysIn (expand c i) = [k]
      | _ => (delaysIn (expand c i)).length =
          (delaysIn (expand c i)).count .bit + (delaysIn (expand c i)).count .settle) ∧
    (delaysIn (expand c i)).count .bit =
      (match i with
        | .i2cStart => 2 | .i2cStop => 3 | .i2cWbit _ => 2 | .i2cRbit => 1 | .i2cWbyte _ => 17
        | .lcdPulse _ _ => 56 | .lcdCmd _ => 112 | .lcdData _ => 112 | .wait k => if k = .bit then 1 else 0) ∧
    (delaysIn (expand c i)).count .settle =
      (match i with
        | .i2cStart => 0 | .i2cStop => 0 | .i2cWbit _ => 0 | .i2cRbit => 0 | .i2cWbyte _ => 0
        | .lcdPulse _ _ => 2 | .lcdCmd _ => 4 | .lcdData _ => 4 | .wait k => if k = .settle then 1 else 0)

/-- Every operation presented to a ready block is accepted and completes after exactly the number of micro-steps of
R77, busy until then, whatever the bus does, if no reset cuts it (60_exceptions R171; 30_encoding R77; 41_byte_transfer R123). -/
def Obligations.EveryOperationCompletes : Prop :=
  ∀ (i : Instr) (s : State), s.ready = true → Quiet (microCount i) s →
    ∃ t u, exec i s = .next t ∧ Accepted s t ∧
      (∀ m, m < microCount i → ∃ v, run m t = .next v ∧ v.busy = true ∧ v.ready = false) ∧
      run (microCount i) t = .next u ∧ Completed (microCount i) (sampleCount i) s u ∧ u.ready = true ∧
      u.trace = s.trace ++ eventsOf (expand s.config i) (s.comingLevels (sampleCount i)) ∧
      ResultSays u.result (s.comingLevels (sampleCount i)) ∧ u.latches = exitLatches s.latches i

/-- Framing is deterministic (42_lcd_transport R135, the spec's own inference; 41_byte_transfer R122):
two blocks with one DEV_ADDR7, BACKLIGHT and bit map, in any ready states, with any histories and on any buses,
that run one operation make the same events but for the values sampled. -/
def Obligations.FramingIgnoresBusAndHistory : Prop :=
  ∀ (i : Instr) (s s' : State), s.config.devAddr7 = s'.config.devAddr7 → s.config.backlight = s'.config.backlight →
    s.config.bitMap = s'.config.bitMap → s.ready = true → s'.ready = true →
    Quiet (microCount i) s → Quiet (microCount i) s' →
    ∃ t u es t' u' es', exec i s = .next t ∧ run (microCount i) t = .next u ∧ u.trace = s.trace ++ es ∧
      exec i s' = .next t' ∧ run (microCount i) t' = .next u' ∧ u'.trace = s'.trace ++ es' ∧
      es.map Event.action = es'.map Event.action

/-- Raw words reproduce one enable pulse (95_test_vectors P6; 40_bit_level R109; 42_lcd_transport R130): START, three
byte writes with a WAIT SETTLE after the last two, and STOP leave the same trace and latches as the one word LCD_PULSE; RESULT
alone differs. -/
def Obligations.RawWordsEqualOnePulse : Prop :=
  ∀ (n : Nibble) (rs : Bit) (s : State), s.ready = true → Quiet 157 s →
    let raw : List Instr := [.i2cStart, .i2cWbyte (addrByte s.config), .i2cWbyte (tb s.config n rs true), .wait .settle,
      .i2cWbyte (tb s.config n rs false), .wait .settle, .i2cStop]
    ∃ u v, run 151 { s with stream := [encode (.lcdPulse n rs)] } = .next u ∧
      run 157 { s with stream := raw.map encode } = .next v ∧
      u.trace = v.trace ∧ u.latches = v.latches ∧ u.stream = [] ∧ v.stream = [] ∧ u.ready = true ∧ v.ready = true ∧
      ResultSays u.result (s.comingLevels 3) ∧ v.result = 0x0000#16

/-! ## RESULT, STATUS, the latches, the trace, the configuration -/

/-- How RESULT is packed from at most six samples (10_state R26): every field and every reserved bit. -/
def Obligations.ResultFields : Prop :=
  ∀ samples : List Bit, samples.length ≤ 6 → ResultSays (packResult samples) samples

/-- RESULT changes only at the completion of an operation, where it becomes the packing of that operation's samples, and at a
reset (10_state R26; 20_memory R54). -/
def Obligations.ResultWrittenAtCompletion : Prop :=
  ∀ s t : State, step s = .next t → s.resetNow = false →
    (s.busy = true ∧ t.busy = false ∧ t.result = packResult t.samples) ∨ t.result = s.result

/-- Nothing reads RESULT (10_state R26, R31; 41_byte_transfer R122): a block with any other RESULT takes the same step in every
other field. -/
def Obligations.ResultIsAdvisory : Prop :=
  ∀ (s t : State) (r : Word), step s = .next t →
    ∃ t', step { s with result := r } = .next t' ∧ { t' with result := t.result } = t

/-- STATUS (10_state R28): BUSY in bit 0, REFUSED in bit 1, the rest 0; 0x0000 at reset. -/
def Obligations.StatusFields : Prop :=
  (∀ s : State, s.status.getLsbD 0 = s.busy ∧ s.status.getLsbD 1 = s.refused ∧ Word.field s.status 2 14 = 0) ∧
  State.reset.status = 0x0000#16

/-- Only a `SCL <- v` micro-action, or a reset, writes the SCL latch, and only a `SDA <- v` the SDA latch (10_state R22, R23). -/
def Obligations.OnlyLatchWritesMoveLatches : Prop :=
  ∀ s t : State, step s = .next t → s.resetNow = false →
    (t.sclOut = s.sclOut ∨ ∃ v rest, s.busy = true ∧ s.seq = .setScl v :: rest ∧ t.sclOut = v) ∧
    (t.sdaOut = s.sdaOut ∨ ∃ v rest, s.busy = true ∧ s.seq = .setSda v :: rest ∧ t.sdaOut = v)

/-- The trace grows by exactly one event at a micro-step, the event of the micro-action done, and by none at any other step
(00_scope R11; 10_state R27, R34; 20_memory R53). -/
def Obligations.TraceGrowsWithMicroActions : Prop :=
  ∀ s t : State, step s = .next t → s.resetNow = false →
    (s.busy = false ∧ t.trace = s.trace) ∨
    (s.busy = true ∧ ∃ e rest, s.seq = e.action :: rest ∧ t.seq = rest ∧ t.trace = s.trace ++ [e])

/-- No step changes the configuration, a reset among them (10_state R29; 70_reset_and_hazards R190; 60_exceptions R185). -/
def Obligations.ConfigurationIsConstant : Prop :=
  ∀ s t : State, step s = .next t → t.config = s.config

/-- The frame of every operation: its accept changes `seq`, `samples` and `busy` and nothing else, no latch, no event, not
RESULT, not the mark, no input. -/
def Obligations.AcceptFrame : Prop :=
  ∀ (i : Instr) (s t : State), exec i s = .next t →
    t = { s with seq := t.seq, samples := t.samples, busy := t.busy }

/-! ## Refusal and reset -/

/-- The refusal of an illegal word (60_exceptions R172): the mark with its reason and nothing else, so that no event is recorded
and RESULT, `busy` and the latches are as before; STATUS reads 0x0002; from then on `ready` stays 0 and no step clears the mark
but a reset, which does. -/
def Obligations.IllegalWordRefused : Prop :=
  (∀ (s : State) (w : Word) (rest : List Word) (r : IllegalReason),
    s.resetNow = false → s.ready = true → s.stream = w :: rest → decode w = .error r →
    ∃ t, step s = .next t ∧ t = { s with stream := rest, resetIn := s.resetIn.tail, refusal := some r } ∧
      t.refused = true ∧ t.status = 0x0002#16 ∧ t.ready = false) ∧
  (∀ s t : State, s.refused = true → step s = .next t → s.resetNow = false →
    t.refusal = s.refusal ∧ t.ready = false) ∧
  (∀ s t : State, step s = .next t → s.resetNow = true → t.refused = false)

/-- How the model goes on in a refused block, which is its own choice (log entry 4): it waits for a reset that is `n` steps ahead
and then stands in the reset state; with no reset to come it stops with a refusal that names the reason. -/
def Obligations.RefusedBlockWaitsForReset : Prop :=
  (∀ (n : Nat) (s : State) (later : List Bool), s.busy = false → s.refused = true →
    s.resetIn = List.replicate n false ++ true :: later →
    ∃ u, run (n + 1) s = .next u ∧ u.refused = false ∧ u.ready = true ∧ u.latches = (true, true) ∧ u.busy = false ∧
      u.seq = [] ∧ u.samples = [] ∧ u.result = 0x0000#16 ∧ u.status = 0x0000#16 ∧ u.trace = [] ∧ u.config = s.config ∧
      u.stream = s.stream ∧ u.resetIn = later) ∧
  (∀ (s : State) (r : IllegalReason), s.busy = false → s.refusal = some r → (∀ b ∈ s.resetIn, b = false) →
    step s = .refused (.illegalWord r))

/-- The reset values (70_reset_and_hazards R190), of the state right after reset and of every state a reset step gives,
whatever it cut; the configuration is kept, and the next word the host presents is the first operation. -/
def Obligations.ResetState : Prop :=
  (∀ s : State, s = State.reset ∨ (∃ s0 : State, s0.resetNow = true ∧ step s0 = .next s) →
    s.sclOut = true ∧ s.sdaOut = true ∧ s.busy = false ∧ s.seq = [] ∧ s.samples = [] ∧ s.result = 0x0000#16 ∧
    s.status = 0x0000#16 ∧ s.refused = false ∧ s.trace = [] ∧ s.ready = true) ∧
  (∀ s0 : State, s0.resetNow = true → ∃ t, step s0 = .next t ∧ t.config = s0.config ∧ t.stream = s0.stream) ∧
  State.reset.config.devAddr7 = 0x27#7 ∧ State.reset.config.backlight = true ∧
  State.reset.config.bitMap = { rsBit := 0, rwBit := 1, enBit := 2, blBit := 3 }

/-- A reset overrides every other event of its step and discards the operation in progress; both latches go to 1 in an order
left open, and either order is all the bus sees of it (70_reset_and_hazards R191; 60_exceptions R175; 95_test_vectors V58). It
rests on the free value `Config.resetSclFirst` for the order and holds for either. -/
def Obligations.ResetOverridesAndDiscards : Prop :=
  ∀ s : State, s.resetNow = true →
    ∃ t, step s = .next t ∧ t.seq = [] ∧ t.busy = false ∧ t.latches = (true, true) ∧
      (t.cutTrace = s.trace ++ [.setScl true, .setSda true] ∨ t.cutTrace = s.trace ++ [.setSda true, .setScl true]) ∧
      latchesAfter s.latches (t.cutTrace.drop s.trace.length) = t.latches

/-! ## Invariant and outcomes -/

/-- HEADLINE. Every step keeps the invariant of the block: `busy` exactly while something is left, no operation in a refused
block, what is left the tail of a legal operation's expansion with what was done of it at the end of the trace, at most six
samples, RESULT a packing of them, the latches what the trace wrote (10_state R21 to R27, R34, R35). -/
def Obligations.StepKeepsInvariant : Prop :=
  ∀ s t : State, Inv s → step s = .next t → Inv t

/-- The invariant holds right after reset. -/
def Obligations.ResetMeetsInvariant : Prop := Inv State.reset

/-- The block raises no fault, and the one way it stops is the refusal of an illegal word with no reset to come (60_exceptions
R170, R171, R172). -/
def Obligations.NoFaultAndOneRefusal : Prop :=
  ∀ s : State, Inv s →
    (∀ f, step s ≠ .fault f) ∧
    (∀ r, step s = .refused r ↔
      ∃ reason, r = .illegalWord reason ∧ s.refusal = some reason ∧ ∀ b ∈ s.resetIn, b = false)

/-- At most one of an accept, a micro-step and a refusal happens in a step (60_exceptions R175, the spec's own inference
from R34, R35 and R75): a step that is no reset and
takes a word makes no event, and one that makes an event takes no word and refuses nothing. -/
def Obligations.OneEventPerStep : Prop :=
  ∀ s t : State, step s = .next t → s.resetNow = false →
    (t.stream ≠ s.stream → t.trace = s.trace ∧ s.busy = false) ∧
    (t.trace ≠ s.trace → t.stream = s.stream ∧ t.refusal = s.refusal ∧ s.busy = true) ∧
    (t.refusal ≠ s.refusal → t.trace = s.trace ∧ t.busy = s.busy ∧ t.seq = s.seq)

/-! ## The host layer -/

/-- LCD_INIT is these 13 words in this order, and makes 36 byte transfers, one sample each (43_lcd_command_interface R153), and 12
transactions, a START and a STOP each (R153; 00_scope R15; read off the block's latches, every device leaving the lines released:
DEDUCED, log entry 9). -/
def Obligations.InitWordsInOrder : Prop :=
  assemble .lcdInit = some
    [0x8004#16, 0x7033#16, 0x8002#16, 0x7032#16, 0x8002#16, 0x7028#16, 0x8002#16, 0x700C#16, 0x8002#16, 0x7006#16,
     0x8002#16, 0x7001#16, 0x8003#16] ∧
  assemble .lcdInit = some (lcdInitOps.map encode) ∧
  ∀ (c : Config) (levels : List Bit),
    samplesIn (lcdInitOps.flatMap (expand c)) = 36 ∧
    conditionsOf (true, true) (eventsOf (lcdInitOps.flatMap (expand c)) levels) =
      (List.replicate 12 [WireCondition.start, WireCondition.stop]).flatten

/-- The nibbles the pulses of LCD_INIT carry, in order (43_lcd_command_interface R154, the spec's own inference: "derived: from
rules R153 and R150 and 42_lcd_transport.md rule R132"). -/
def Obligations.InitNibbleStream : Prop :=
  ∀ c : Config, lcdInitOps.flatMap (expand c) =
    [.delay .poweron] ++ (pulseSeq c 3#4 false ++ pulseSeq c 3#4 false ++ [.delay .cmd]) ++
    (pulseSeq c 3#4 false ++ pulseSeq c 2#4 false ++ [.delay .cmd]) ++
    (pulseSeq c 2#4 false ++ pulseSeq c 8#4 false ++ [.delay .cmd]) ++
    (pulseSeq c 0#4 false ++ pulseSeq c 0xC#4 false ++ [.delay .cmd]) ++
    (pulseSeq c 0#4 false ++ pulseSeq c 6#4 false ++ [.delay .cmd]) ++
    (pulseSeq c 0#4 false ++ pulseSeq c 1#4 false ++ [.delay .clear])

/-- LCD_SETCURSOR row, col (43_lcd_command_interface R155, R156): for row 0 or 1 and column 0..63 the command
`base(row) + col` with no wrap, then WAIT CMD; outside these ranges an assembly error; DISPLAY_COLS plays no part. -/
def Obligations.SetCursorWords : Prop :=
  ∀ row col : Nat,
    (row = 0 → col < 64 → assemble (.lcdSetCursor row col) = some [BitVec.ofNat 16 (0x7080 + col), 0x8002#16]) ∧
    (row = 1 → col < 64 → assemble (.lcdSetCursor row col) = some [BitVec.ofNat 16 (0x70C0 + col), 0x8002#16]) ∧
    ((2 ≤ row ∨ 64 ≤ col) → assemble (.lcdSetCursor row col) = none)

/-- LCD_COMMAND, LCD_CLEAR and LCD_PRINT (43_lcd_command_interface R150, R152, R157). -/
def Obligations.CommandClearPrintWords : Prop :=
  (∀ c : Nat, c < 256 → assemble (.lcdCommand c) = some [BitVec.ofNat 16 (0x7000 + c), 0x8002#16]) ∧
  assemble .lcdClear = some [0x7001#16, 0x8003#16] ∧
  (∀ s : List Nat, (∀ ch ∈ s, ch < 256) →
    assemble (.lcdPrint s) = some (s.map fun ch => BitVec.ofNat 16 (0x7100 + ch)))

/-- The assembler never truncates (30_encoding R72; 43_lcd_command_interface R150, R157): for each form the words of every operand
in range, in numbers, and an error for every operand out of range; and every word any line gives is legal. LCD_SETCURSOR is in
`SetCursorWords`, the words of LCD_COMMAND, LCD_CLEAR and LCD_PRINT are in `CommandClearPrintWords`, LCD_INIT in
`InitWordsInOrder`. -/
def Obligations.AssemblerNeverTruncates : Prop :=
  assemble .i2cStart = some [0x1000#16] ∧ assemble .i2cStop = some [0x2000#16] ∧ assemble .i2cRbit = some [0x4000#16] ∧
  (∀ b : Nat, (b < 2 → assemble (.i2cWbit b) = some [BitVec.ofNat 16 (0x3000 + b)]) ∧
    (2 ≤ b → assemble (.i2cWbit b) = none)) ∧
  (∀ d : Nat, (d < 256 → assemble (.i2cWbyte d) = some [BitVec.ofNat 16 (0x5000 + d)]) ∧
    (256 ≤ d → assemble (.i2cWbyte d) = none)) ∧
  (∀ n rs : Nat, (n < 16 → rs < 2 → assemble (.lcdPulse n rs) = some [BitVec.ofNat 16 (0x6000 + n * 16 + rs)]) ∧
    (16 ≤ n ∨ 2 ≤ rs → assemble (.lcdPulse n rs) = none)) ∧
  (∀ d : Nat, (d < 256 → assemble (.lcdCmd d) = some [BitVec.ofNat 16 (0x7000 + d)]) ∧
    (256 ≤ d → assemble (.lcdCmd d) = none)) ∧
  (∀ d : Nat, (d < 256 → assemble (.lcdData d) = some [BitVec.ofNat 16 (0x7100 + d)]) ∧
    (256 ≤ d → assemble (.lcdData d) = none)) ∧
  assemble (.wait .bit) = some [0x8000#16] ∧ assemble (.wait .settle) = some [0x8001#16] ∧
  assemble (.wait .cmd) = some [0x8002#16] ∧ assemble (.wait .clear) = some [0x8003#16] ∧
  assemble (.wait .poweron) = some [0x8004#16] ∧
  (∀ c : Nat, 256 ≤ c → assemble (.lcdCommand c) = none) ∧
  (∀ s : List Nat, (∃ ch ∈ s, 256 ≤ ch) → assemble (.lcdPrint s) = none) ∧
  (∀ l : AsmLine, (l.wellFormed = false → assemble l = none) ∧
    (l.wellFormed = true → ∃ ws, assemble l = some ws ∧ ∀ w ∈ ws, legal w = true))

/-! ## Hazards and timing -/

/-- A stream that keeps its bit and byte operations inside transactions (70_reset_and_hazards R196), entered with the bus
released, enters every one of them with SCL low, so none of them makes a wire condition
(40_bit_level R105; 00_scope R15; read off the latches, log entry 9). -/
def Obligations.BitOpsInsideMakeNoCondition : Prop :=
  ∀ (c : Config) (before after : List Instr) (i : Instr) (levels : List Bit),
    bitOpsInside false (before ++ i :: after) = true →
    (match i with | .i2cWbit _ => true | .i2cRbit => true | .i2cWbyte _ => true | _ => false) = true →
    let entry := before.foldl exitLatches (true, true)
    entry.1 = false ∧ conditionsOf entry (eventsOf (expand c i) levels) = []

/-- The pseudo-instructions keep the host's duties whatever their operands (70_reset_and_hazards R196 to R199, R203): any program of
them with no ordinary command of the clear class (0x01, or home, 0x02 and 0x03) keeps bit operations inside, reads the ACK of every
byte, pairs its pulses and waits after every clear; and one whose first line is LCD_INIT starts with the bring-up sequence in its
order. A bare LCD_CMD of the clear class with an LCD operation right after it breaks the wait, in every nibble phase, and with a
WAIT CLEAR between it does not. -/
def Obligations.PseudoInstructionsKeepDuties : Prop :=
  (∀ (c : Config) (ls : List AsmLine),
    (∀ l ∈ ls, l.wellFormed = true ∧ (match l with
      | .lcdCommand x => x ≠ 1 ∧ x ≠ 2 ∧ x ≠ 3
      | .lcdClear => True
      | .lcdInit => True
      | .lcdSetCursor _ _ => True
      | .lcdPrint _ => True
      | _ => False)) →
    let is := ls.flatMap AsmLine.operations
    bitOpsInside false is = true ∧ ackAfterEightBits 0 is = true ∧ pulsesPaired false is = true ∧ clearWaited c none 0 is = true ∧
      (ls.head? = some .lcdInit → startsWithInit is = true)) ∧
  (∀ (c : Config) (half : Option Nibble) (owed : Nat) (d : Byte) (i : Instr) (is : List Instr),
    d = 0x01#8 ∨ d = 0x02#8 ∨ d = 0x03#8 → 0 < c.tClear →
    (match i with | .lcdPulse _ _ => true | .lcdCmd _ => true | .lcdData _ => true | _ => false) = true →
    clearWaited c half owed (.lcdCmd d :: i :: is) = false) ∧
  (∀ (c : Config) (d x : Byte), clearWaited c none 0 [.lcdCmd d, .wait .clear, .lcdData x] = true)

/-- The least time of every operation and pseudo-instruction is the table of R207 (70_reset_and_hazards, the spec's own
inference from R77), counted from the delays of the
expansion; under the constraints on T_CLEAR of R203 a clear takes longer than an ordinary command, and its wait
longer than the transport of one byte. -/
def Obligations.MinimumDurations : Prop :=
  ∀ c : Config,
    (∀ i, minTime c (expand c i) = minDuration c i) ∧
    (∀ d, minDurationAll c (lcdCommandOps d) = 112 * c.tBit + 4 * c.tSettle + c.tCmd) ∧
    minDurationAll c lcdClearOps = 112 * c.tBit + 4 * c.tSettle + c.tClear ∧
    minDurationAll c lcdInitOps = c.tPoweron + 672 * c.tBit + 24 * c.tSettle + 5 * c.tCmd + c.tClear ∧
    (∀ s : List Byte, minDurationAll c (lcdPrintOps s) = s.length * (112 * c.tBit + 4 * c.tSettle)) ∧
    (c.ClearDominates → ∀ d, minDurationAll c (lcdCommandOps d) < minDurationAll c lcdClearOps ∧
      minDuration c (.lcdCmd d) < minDuration c (.wait .clear))

/-- Between the end of the enable-set byte and the end of the enable-clear byte of a pulse at least `T_SETTLE + 17 T_BIT` pass
(42_lcd_transport R131, the spec's own inference; 70_reset_and_hazards R201): the time EN is high under the reading of R131. -/
def Obligations.EnableHighTime : Prop :=
  ∀ (c : Config) (n : Nibble) (rs : Bit), ∃ before during after : List MicroAction,
    pulseSeq c n rs = before ++ wbyteSeq (tb c n rs true) ++ during ++ after ∧
    during = [.delay .settle] ++ wbyteSeq (tb c n rs false) ∧ minTime c during = c.tSettle + 17 * c.tBit

/-! ## The reference device, a premise named -/

/-- With the reference device of 60_exceptions R184 (general knowledge, for the observer; log entry 9) at DEV_ADDR7, on
the block's bit map, idle, in 4-bit mode and on a byte boundary: every sample of an LCD_CMD or LCD_DATA is an ACK, RESULT is 0x0600,
and the controller has received exactly the byte sent, with its register select, and is idle on a byte boundary again. -/
def Obligations.DeviceReceivesByteSent : Prop :=
  ∀ (i : Instr) (d : Byte) (rs : Bit) (s : State) (dev : Device),
    (i = .lcdCmd d ∧ rs = false ∨ i = .lcdData d ∧ rs = true) →
    s.ready = true → Quiet 300 s → s.latches = (true, true) → s.config.bitMap.Legal →
    dev.address = s.config.devAddr7 → dev.bitMap = s.config.bitMap → dev.scl = true → dev.sda = true →
    dev.phase = .idle → dev.OnByteBoundary →
    dev.levelsFor (expand s.config i) = List.replicate 6 false ∧
    (s.comingLevels 6 = List.replicate 6 false →
      ∃ t u es, exec i s = .next t ∧ run 300 t = .next u ∧ u.trace = s.trace ++ es ∧ u.result = 0x0600#16 ∧
        (dev.watch es).received = dev.received ++ [{ rs := rs, byte := d }] ∧ (dev.watch es).OnByteBoundary ∧
        (dev.watch es).phase = .idle ∧ (dev.watch es).scl = true ∧ (dev.watch es).sda = true)

/-- The reference device (log entry 9) on the bus of a legal bit map and idle, either on a byte boundary or, in whatever interface
width and nibble phase, with a program that starts with LCD_INIT, sees every clear of a program of pseudo-instructions waited for
(70_reset_and_hazards R199, R203; R197 for the recovery), as `clearWaitedOnWire` reads the duty: no operation strobes the controller
before T_CLEAR has passed since a command of the clear class, EXCEPT that a byte which LCD_INIT's own bring-up nibbles complete in a
lost nibble phase owes nothing (with a high nibble 0 waiting the first nibble 3 makes a home 0x03, and the next nibble strobes at
once). That exception, and how the time is counted, are the model's choice (log entry 11), as is the device (log entry 9). -/
def Obligations.PseudoInstructionsWaitOnWire : Prop :=
  ∀ (c : Config) (dev : Device) (ls : List AsmLine),
    c.bitMap.Legal → dev.address = c.devAddr7 → dev.bitMap = c.bitMap → dev.scl = true → dev.sda = true →
    dev.phase = .idle → dev.OnByteBoundary ∨ ls.head? = some .lcdInit →
    (∀ l ∈ ls, l.wellFormed = true ∧ (match l with
      | .lcdCommand x => x ≠ 1 ∧ x ≠ 2 ∧ x ≠ 3
      | .lcdClear => True
      | .lcdInit => True
      | .lcdSetCursor _ _ => True
      | .lcdPrint _ => True
      | _ => False)) →
    clearWaitedOnWire c dev 0 (ls.flatMap AsmLine.operations) = true

/-- With the reference device on a byte boundary, one LCD_PULSE leaves it half a byte further: an extra pulse shifts the nibble
phase (70_reset_and_hazards R197; 20_memory R51; 60_exceptions R184; log entry 9); RESULT is 0x0300. LCD_INIT recovers: from
whatever interface width and nibble phase, its expansion leaves the device on a byte boundary (R197; 43_lcd_command_interface R154,
the spec's own inference). -/
def Obligations.ExtraPulseShiftsNibblePhase : Prop :=
  (∀ (n : Nibble) (rs : Bit) (s : State) (dev : Device),
    s.ready = true → Quiet 150 s → s.latches = (true, true) → s.config.bitMap.Legal →
    dev.address = s.config.devAddr7 → dev.bitMap = s.config.bitMap → dev.scl = true → dev.sda = true →
    dev.phase = .idle → dev.OnByteBoundary → s.comingLevels 3 = List.replicate 3 false →
    ∃ t u es, exec (.lcdPulse n rs) s = .next t ∧ run 150 t = .next u ∧ u.trace = s.trace ++ es ∧
      u.result = 0x0300#16 ∧ dev.levelsFor (expand s.config (.lcdPulse n rs)) = List.replicate 3 false ∧
      (dev.watch es).interface = .fourBit (some n) ∧ (dev.watch es).received = dev.received) ∧
  (∀ (c : Config) (dev : Device) (levels : List Bit), c.bitMap.Legal →
    dev.address = c.devAddr7 → dev.bitMap = c.bitMap → dev.scl = true → dev.sda = true → dev.phase = .idle →
    (dev.watch (eventsOf (lcdInitOps.flatMap (expand c)) levels)).OnByteBoundary ∧
    (dev.interface = .unknown →
      (dev.watch (eventsOf (lcdInitOps.flatMap (expand c)) levels)).received =
        dev.received ++ [{ rs := false, byte := 0x28#8 }, { rs := false, byte := 0x0C#8 }, { rs := false, byte := 0x06#8 },
          { rs := false, byte := 0x01#8 }]))
end

