-- ==== Sys2Proof/Laws/State.lean ====
section
/-! SUPPORT. One lemma for each field of each update of the state, true by rfl, so that no later proof unfolds a record update. -/

namespace Sys2Proof.Machine

section sampleSda

variable (s : State)

@[simp] theorem State.sampleSda_config : s.sampleSda.config = s.config := rfl
@[simp] theorem State.sampleSda_sclOut : s.sampleSda.sclOut = s.sclOut := rfl
@[simp] theorem State.sampleSda_sdaOut : s.sampleSda.sdaOut = s.sdaOut := rfl
@[simp] theorem State.sampleSda_seq : s.sampleSda.seq = s.seq := rfl
@[simp] theorem State.sampleSda_busy : s.sampleSda.busy = s.busy := rfl
@[simp] theorem State.sampleSda_samples : s.sampleSda.samples = s.samples ++ [s.sdaOut && s.slaveSda] := rfl
@[simp] theorem State.sampleSda_result : s.sampleSda.result = s.result := rfl
@[simp] theorem State.sampleSda_refusal : s.sampleSda.refusal = s.refusal := rfl
@[simp] theorem State.sampleSda_trace : s.sampleSda.trace = s.trace ++ [.sample (s.sdaOut && s.slaveSda)] := rfl
@[simp] theorem State.sampleSda_stream : s.sampleSda.stream = s.stream := rfl
@[simp] theorem State.sampleSda_resetIn : s.sampleSda.resetIn = s.resetIn := rfl
@[simp] theorem State.sampleSda_busIn : s.sampleSda.busIn = s.busIn.tail := rfl
@[simp] theorem State.sampleSda_draws : s.sampleSda.draws = s.draws + 1 := rfl
@[simp] theorem State.sampleSda_cutTrace : s.sampleSda.cutTrace = s.cutTrace := rfl

end sampleSda

section complete

variable (s : State)

@[simp] theorem State.complete_config : s.complete.config = s.config := rfl
@[simp] theorem State.complete_sclOut : s.complete.sclOut = s.sclOut := rfl
@[simp] theorem State.complete_sdaOut : s.complete.sdaOut = s.sdaOut := rfl
@[simp] theorem State.complete_seq : s.complete.seq = s.seq := rfl
@[simp] theorem State.complete_busy : s.complete.busy = false := rfl
@[simp] theorem State.complete_samples : s.complete.samples = s.samples := rfl
@[simp] theorem State.complete_result : s.complete.result = packResult s.samples := rfl
@[simp] theorem State.complete_refusal : s.complete.refusal = s.refusal := rfl
@[simp] theorem State.complete_trace : s.complete.trace = s.trace := rfl
@[simp] theorem State.complete_stream : s.complete.stream = s.stream := rfl
@[simp] theorem State.complete_resetIn : s.complete.resetIn = s.resetIn := rfl
@[simp] theorem State.complete_busIn : s.complete.busIn = s.busIn := rfl
@[simp] theorem State.complete_draws : s.complete.draws = s.draws := rfl
@[simp] theorem State.complete_cutTrace : s.complete.cutTrace = s.cutTrace := rfl

end complete

section load

variable (ms : List MicroAction) (s : State)

@[simp] theorem State.load_config : (State.load ms s).config = s.config := rfl
@[simp] theorem State.load_sclOut : (State.load ms s).sclOut = s.sclOut := rfl
@[simp] theorem State.load_sdaOut : (State.load ms s).sdaOut = s.sdaOut := rfl
@[simp] theorem State.load_seq : (State.load ms s).seq = ms := rfl
@[simp] theorem State.load_busy : (State.load ms s).busy = true := rfl
@[simp] theorem State.load_samples : (State.load ms s).samples = [] := rfl
@[simp] theorem State.load_result : (State.load ms s).result = s.result := rfl
@[simp] theorem State.load_refusal : (State.load ms s).refusal = s.refusal := rfl
@[simp] theorem State.load_trace : (State.load ms s).trace = s.trace := rfl
@[simp] theorem State.load_stream : (State.load ms s).stream = s.stream := rfl
@[simp] theorem State.load_resetIn : (State.load ms s).resetIn = s.resetIn := rfl
@[simp] theorem State.load_busIn : (State.load ms s).busIn = s.busIn := rfl
@[simp] theorem State.load_draws : (State.load ms s).draws = s.draws := rfl
@[simp] theorem State.load_cutTrace : (State.load ms s).cutTrace = s.cutTrace := rfl

end load

section refuse

variable (r : IllegalReason) (s : State)

@[simp] theorem State.refuse_config : (State.refuse r s).config = s.config := rfl
@[simp] theorem State.refuse_sclOut : (State.refuse r s).sclOut = s.sclOut := rfl
@[simp] theorem State.refuse_sdaOut : (State.refuse r s).sdaOut = s.sdaOut := rfl
@[simp] theorem State.refuse_seq : (State.refuse r s).seq = s.seq := rfl
@[simp] theorem State.refuse_busy : (State.refuse r s).busy = s.busy := rfl
@[simp] theorem State.refuse_samples : (State.refuse r s).samples = s.samples := rfl
@[simp] theorem State.refuse_result : (State.refuse r s).result = s.result := rfl
@[simp] theorem State.refuse_refusal : (State.refuse r s).refusal = some r := rfl
@[simp] theorem State.refuse_trace : (State.refuse r s).trace = s.trace := rfl
@[simp] theorem State.refuse_stream : (State.refuse r s).stream = s.stream := rfl
@[simp] theorem State.refuse_resetIn : (State.refuse r s).resetIn = s.resetIn := rfl
@[simp] theorem State.refuse_busIn : (State.refuse r s).busIn = s.busIn := rfl
@[simp] theorem State.refuse_draws : (State.refuse r s).draws = s.draws := rfl
@[simp] theorem State.refuse_cutTrace : (State.refuse r s).cutTrace = s.cutTrace := rfl

end refuse

section doReset

variable (s : State)

@[simp] theorem State.doReset_config : s.doReset.config = s.config := rfl
@[simp] theorem State.doReset_sclOut : s.doReset.sclOut = true := rfl
@[simp] theorem State.doReset_sdaOut : s.doReset.sdaOut = true := rfl
@[simp] theorem State.doReset_seq : s.doReset.seq = [] := rfl
@[simp] theorem State.doReset_busy : s.doReset.busy = false := rfl
@[simp] theorem State.doReset_samples : s.doReset.samples = [] := rfl
@[simp] theorem State.doReset_result : s.doReset.result = 0x0000#16 := rfl
@[simp] theorem State.doReset_refusal : s.doReset.refusal = none := rfl
@[simp] theorem State.doReset_trace : s.doReset.trace = [] := rfl
@[simp] theorem State.doReset_stream : s.doReset.stream = s.stream := rfl
@[simp] theorem State.doReset_resetIn : s.doReset.resetIn = s.resetIn := rfl
@[simp] theorem State.doReset_busIn : s.doReset.busIn = s.busIn := rfl
@[simp] theorem State.doReset_draws : s.doReset.draws = s.draws + 1 := rfl
@[simp] theorem State.doReset_cutTrace : s.doReset.cutTrace = s.trace ++ s.resetWrites := rfl

end doReset

section tick

variable (s : State)

@[simp] theorem State.tick_config : s.tick.config = s.config := rfl
@[simp] theorem State.tick_sclOut : s.tick.sclOut = s.sclOut := rfl
@[simp] theorem State.tick_sdaOut : s.tick.sdaOut = s.sdaOut := rfl
@[simp] theorem State.tick_seq : s.tick.seq = s.seq := rfl
@[simp] theorem State.tick_busy : s.tick.busy = s.busy := rfl
@[simp] theorem State.tick_samples : s.tick.samples = s.samples := rfl
@[simp] theorem State.tick_result : s.tick.result = s.result := rfl
@[simp] theorem State.tick_refusal : s.tick.refusal = s.refusal := rfl
@[simp] theorem State.tick_trace : s.tick.trace = s.trace := rfl
@[simp] theorem State.tick_stream : s.tick.stream = s.stream := rfl
@[simp] theorem State.tick_resetIn : s.tick.resetIn = s.resetIn.tail := rfl
@[simp] theorem State.tick_busIn : s.tick.busIn = s.busIn := rfl
@[simp] theorem State.tick_draws : s.tick.draws = s.draws := rfl
@[simp] theorem State.tick_cutTrace : s.tick.cutTrace = s.cutTrace := rfl

end tick

section takeWord

variable (s : State)

@[simp] theorem State.takeWord_config : s.takeWord.config = s.config := rfl
@[simp] theorem State.takeWord_sclOut : s.takeWord.sclOut = s.sclOut := rfl
@[simp] theorem State.takeWord_sdaOut : s.takeWord.sdaOut = s.sdaOut := rfl
@[simp] theorem State.takeWord_seq : s.takeWord.seq = s.seq := rfl
@[simp] theorem State.takeWord_busy : s.takeWord.busy = s.busy := rfl
@[simp] theorem State.takeWord_samples : s.takeWord.samples = s.samples := rfl
@[simp] theorem State.takeWord_result : s.takeWord.result = s.result := rfl
@[simp] theorem State.takeWord_refusal : s.takeWord.refusal = s.refusal := rfl
@[simp] theorem State.takeWord_trace : s.takeWord.trace = s.trace := rfl
@[simp] theorem State.takeWord_stream : s.takeWord.stream = s.stream.tail := rfl
@[simp] theorem State.takeWord_resetIn : s.takeWord.resetIn = s.resetIn := rfl
@[simp] theorem State.takeWord_busIn : s.takeWord.busIn = s.busIn := rfl
@[simp] theorem State.takeWord_draws : s.takeWord.draws = s.draws := rfl
@[simp] theorem State.takeWord_cutTrace : s.takeWord.cutTrace = s.cutTrace := rfl

end takeWord

section makeReady

variable (s : State)

@[simp] theorem State.makeReady_config : s.makeReady.config = s.config := rfl
@[simp] theorem State.makeReady_sclOut : s.makeReady.sclOut = s.sclOut := rfl
@[simp] theorem State.makeReady_sdaOut : s.makeReady.sdaOut = s.sdaOut := rfl
@[simp] theorem State.makeReady_seq : s.makeReady.seq = [] := rfl
@[simp] theorem State.makeReady_busy : s.makeReady.busy = false := rfl
@[simp] theorem State.makeReady_samples : s.makeReady.samples = s.samples := rfl
@[simp] theorem State.makeReady_result : s.makeReady.result = s.result := rfl
@[simp] theorem State.makeReady_refusal : s.makeReady.refusal = none := rfl
@[simp] theorem State.makeReady_trace : s.makeReady.trace = s.trace := rfl
@[simp] theorem State.makeReady_stream : s.makeReady.stream = s.stream := rfl
@[simp] theorem State.makeReady_resetIn : s.makeReady.resetIn = if s.resetNow then false :: s.resetIn.tail else s.resetIn := rfl
@[simp] theorem State.makeReady_busIn : s.makeReady.busIn = s.busIn := rfl
@[simp] theorem State.makeReady_draws : s.makeReady.draws = s.draws := rfl
@[simp] theorem State.makeReady_cutTrace : s.makeReady.cutTrace = s.cutTrace := rfl

end makeReady

section present

variable (w : Word) (s : State)

@[simp] theorem State.present_config : (State.present w s).config = s.config := rfl
@[simp] theorem State.present_sclOut : (State.present w s).sclOut = s.sclOut := rfl
@[simp] theorem State.present_sdaOut : (State.present w s).sdaOut = s.sdaOut := rfl
@[simp] theorem State.present_seq : (State.present w s).seq = s.seq := rfl
@[simp] theorem State.present_busy : (State.present w s).busy = s.busy := rfl
@[simp] theorem State.present_samples : (State.present w s).samples = s.samples := rfl
@[simp] theorem State.present_result : (State.present w s).result = s.result := rfl
@[simp] theorem State.present_refusal : (State.present w s).refusal = s.refusal := rfl
@[simp] theorem State.present_trace : (State.present w s).trace = s.trace := rfl
@[simp] theorem State.present_stream : (State.present w s).stream = w :: s.stream := rfl
@[simp] theorem State.present_resetIn : (State.present w s).resetIn = s.resetIn := rfl
@[simp] theorem State.present_busIn : (State.present w s).busIn = s.busIn := rfl
@[simp] theorem State.present_draws : (State.present w s).draws = s.draws := rfl
@[simp] theorem State.present_cutTrace : (State.present w s).cutTrace = s.cutTrace := rfl

end present

section setScl

variable (v : Bit) (s : State)

@[simp] theorem State.perform_setScl_config : (State.perform (.setScl v) s).config = s.config := rfl
@[simp] theorem State.perform_setScl_sclOut : (State.perform (.setScl v) s).sclOut = v := rfl
@[simp] theorem State.perform_setScl_sdaOut : (State.perform (.setScl v) s).sdaOut = s.sdaOut := rfl
@[simp] theorem State.perform_setScl_seq : (State.perform (.setScl v) s).seq = s.seq := rfl
@[simp] theorem State.perform_setScl_busy : (State.perform (.setScl v) s).busy = s.busy := rfl
@[simp] theorem State.perform_setScl_samples : (State.perform (.setScl v) s).samples = s.samples := rfl
@[simp] theorem State.perform_setScl_result : (State.perform (.setScl v) s).result = s.result := rfl
@[simp] theorem State.perform_setScl_refusal : (State.perform (.setScl v) s).refusal = s.refusal := rfl
@[simp] theorem State.perform_setScl_trace : (State.perform (.setScl v) s).trace = s.trace ++ [.setScl v] := rfl
@[simp] theorem State.perform_setScl_stream : (State.perform (.setScl v) s).stream = s.stream := rfl
@[simp] theorem State.perform_setScl_resetIn : (State.perform (.setScl v) s).resetIn = s.resetIn := rfl
@[simp] theorem State.perform_setScl_busIn : (State.perform (.setScl v) s).busIn = s.busIn := rfl
@[simp] theorem State.perform_setScl_draws : (State.perform (.setScl v) s).draws = s.draws := rfl
@[simp] theorem State.perform_setScl_cutTrace : (State.perform (.setScl v) s).cutTrace = s.cutTrace := rfl

end setScl

section setSda

variable (v : Bit) (s : State)

@[simp] theorem State.perform_setSda_config : (State.perform (.setSda v) s).config = s.config := rfl
@[simp] theorem State.perform_setSda_sclOut : (State.perform (.setSda v) s).sclOut = s.sclOut := rfl
@[simp] theorem State.perform_setSda_sdaOut : (State.perform (.setSda v) s).sdaOut = v := rfl
@[simp] theorem State.perform_setSda_seq : (State.perform (.setSda v) s).seq = s.seq := rfl
@[simp] theorem State.perform_setSda_busy : (State.perform (.setSda v) s).busy = s.busy := rfl
@[simp] theorem State.perform_setSda_samples : (State.perform (.setSda v) s).samples = s.samples := rfl
@[simp] theorem State.perform_setSda_result : (State.perform (.setSda v) s).result = s.result := rfl
@[simp] theorem State.perform_setSda_refusal : (State.perform (.setSda v) s).refusal = s.refusal := rfl
@[simp] theorem State.perform_setSda_trace : (State.perform (.setSda v) s).trace = s.trace ++ [.setSda v] := rfl
@[simp] theorem State.perform_setSda_stream : (State.perform (.setSda v) s).stream = s.stream := rfl
@[simp] theorem State.perform_setSda_resetIn : (State.perform (.setSda v) s).resetIn = s.resetIn := rfl
@[simp] theorem State.perform_setSda_busIn : (State.perform (.setSda v) s).busIn = s.busIn := rfl
@[simp] theorem State.perform_setSda_draws : (State.perform (.setSda v) s).draws = s.draws := rfl
@[simp] theorem State.perform_setSda_cutTrace : (State.perform (.setSda v) s).cutTrace = s.cutTrace := rfl

end setSda

section delay

variable (k : DelayClass) (s : State)

@[simp] theorem State.perform_delay_config : (State.perform (.delay k) s).config = s.config := rfl
@[simp] theorem State.perform_delay_sclOut : (State.perform (.delay k) s).sclOut = s.sclOut := rfl
@[simp] theorem State.perform_delay_sdaOut : (State.perform (.delay k) s).sdaOut = s.sdaOut := rfl
@[simp] theorem State.perform_delay_seq : (State.perform (.delay k) s).seq = s.seq := rfl
@[simp] theorem State.perform_delay_busy : (State.perform (.delay k) s).busy = s.busy := rfl
@[simp] theorem State.perform_delay_samples : (State.perform (.delay k) s).samples = s.samples := rfl
@[simp] theorem State.perform_delay_result : (State.perform (.delay k) s).result = s.result := rfl
@[simp] theorem State.perform_delay_refusal : (State.perform (.delay k) s).refusal = s.refusal := rfl
@[simp] theorem State.perform_delay_trace : (State.perform (.delay k) s).trace = s.trace ++ [.delay k] := rfl
@[simp] theorem State.perform_delay_stream : (State.perform (.delay k) s).stream = s.stream := rfl
@[simp] theorem State.perform_delay_resetIn : (State.perform (.delay k) s).resetIn = s.resetIn := rfl
@[simp] theorem State.perform_delay_busIn : (State.perform (.delay k) s).busIn = s.busIn := rfl
@[simp] theorem State.perform_delay_draws : (State.perform (.delay k) s).draws = s.draws := rfl
@[simp] theorem State.perform_delay_cutTrace : (State.perform (.delay k) s).cutTrace = s.cutTrace := rfl

end delay

@[simp] theorem State.perform_sample (s : State) : State.perform .sample s = s.sampleSda := rfl

end Sys2Proof.Machine
end

