-- ==== Sys2Proof/Laws/Ops.lean ====
section
/-! SUPPORT. For each shared operation of Machine/Ops.lean, once, everything it can do. -/

namespace Sys2Proof.Machine

theorem State.ready_iff (s : State) : s.ready = true ↔ s.busy = false ∧ s.refusal = none := by
  simp [State.ready, State.refused]

theorem State.accept_of_ready {s : State} (h : s.ready = true) (ms : List MicroAction) :
    s.accept ms = .next (s.load ms) := by
  simp [State.accept, h]

theorem State.accept_of_not_ready {s : State} (h : s.ready = false) (ms : List MicroAction) :
    s.accept ms = .next s := by
  simp [State.accept, h]

/-- What an accept can do: load the expansion into a ready block, or change nothing. -/
theorem State.accept_cases {s t : State} {ms : List MicroAction} (h : s.accept ms = .next t) :
    (s.ready = true ∧ t = s.load ms) ∨ (s.ready = false ∧ t = s) := by
  cases hr : s.ready
  · rw [State.accept_of_not_ready hr] at h
    exact .inr ⟨rfl, by injection h with h; exact h.symm⟩
  · rw [State.accept_of_ready hr] at h
    exact .inl ⟨rfl, by injection h with h; exact h.symm⟩

theorem State.microStep_of_cons {s : State} {m : MicroAction} {rest : List MicroAction} (h : s.seq = m :: rest) :
    s.microStep = .next (if rest.isEmpty then (State.perform m { s with seq := rest }).complete
      else State.perform m { s with seq := rest }) := by
  simp only [State.microStep, h]

/-- A micro-action keeps everything but the latches, the samples, the trace and the bus's draws. -/
theorem State.perform_frame (m : MicroAction) (s : State) :
    (State.perform m s).config = s.config ∧ (State.perform m s).seq = s.seq ∧ (State.perform m s).busy = s.busy ∧
    (State.perform m s).result = s.result ∧ (State.perform m s).refusal = s.refusal ∧
    (State.perform m s).stream = s.stream ∧ (State.perform m s).resetIn = s.resetIn ∧
    (State.perform m s).cutTrace = s.cutTrace := by
  cases m <;> simp

@[simp] theorem State.perform_config (m : MicroAction) (s : State) : (State.perform m s).config = s.config := by
  cases m <;> rfl
@[simp] theorem State.perform_seq (m : MicroAction) (s : State) : (State.perform m s).seq = s.seq := by
  cases m <;> rfl
@[simp] theorem State.perform_busy (m : MicroAction) (s : State) : (State.perform m s).busy = s.busy := by
  cases m <;> rfl
@[simp] theorem State.perform_result (m : MicroAction) (s : State) : (State.perform m s).result = s.result := by
  cases m <;> rfl
@[simp] theorem State.perform_refusal (m : MicroAction) (s : State) : (State.perform m s).refusal = s.refusal := by
  cases m <;> rfl
@[simp] theorem State.perform_stream (m : MicroAction) (s : State) : (State.perform m s).stream = s.stream := by
  cases m <;> rfl
@[simp] theorem State.perform_resetIn (m : MicroAction) (s : State) : (State.perform m s).resetIn = s.resetIn := by
  cases m <;> rfl
@[simp] theorem State.perform_cutTrace (m : MicroAction) (s : State) : (State.perform m s).cutTrace = s.cutTrace := by
  cases m <;> rfl

/-- The state with the sequencer and the reset schedule set, as a run passes them on. -/
def State.resume (q : List MicroAction) (r : List Bool) (s : State) : State := { s with seq := q, resetIn := r }

section resume

variable (q : List MicroAction) (r : List Bool) (s : State)

@[simp] theorem State.resume_seq : (State.resume q r s).seq = q := rfl
@[simp] theorem State.resume_resetIn : (State.resume q r s).resetIn = r := rfl
@[simp] theorem State.resume_config : (State.resume q r s).config = s.config := rfl
@[simp] theorem State.resume_sclOut : (State.resume q r s).sclOut = s.sclOut := rfl
@[simp] theorem State.resume_sdaOut : (State.resume q r s).sdaOut = s.sdaOut := rfl
@[simp] theorem State.resume_busy : (State.resume q r s).busy = s.busy := rfl
@[simp] theorem State.resume_samples : (State.resume q r s).samples = s.samples := rfl
@[simp] theorem State.resume_result : (State.resume q r s).result = s.result := rfl
@[simp] theorem State.resume_refusal : (State.resume q r s).refusal = s.refusal := rfl
@[simp] theorem State.resume_trace : (State.resume q r s).trace = s.trace := rfl
@[simp] theorem State.resume_stream : (State.resume q r s).stream = s.stream := rfl
@[simp] theorem State.resume_busIn : (State.resume q r s).busIn = s.busIn := rfl
@[simp] theorem State.resume_draws : (State.resume q r s).draws = s.draws := rfl
@[simp] theorem State.resume_cutTrace : (State.resume q r s).cutTrace = s.cutTrace := rfl
@[simp] theorem State.resume_resume (q' : List MicroAction) (r' : List Bool) :
    State.resume q r (State.resume q' r' s) = State.resume q r s := rfl

/-- A micro-action commutes with what the sequencer and the reset schedule hold. -/
theorem State.perform_resume (m : MicroAction) :
    State.perform m (State.resume q r s) = State.resume q r (State.perform m s) := by
  cases m <;> rfl

end resume

end Sys2Proof.Machine
end

