-- ==== Sys2Proof/Laws/Exec.lean ====
section
/-! SUPPORT. The meanings, seen through the expansion: each is the accept of its own expansion. -/

namespace Sys2Proof.Machine

/-- The meaning of an operation is the accept of its expansion (10_state R34). -/
theorem exec_eq_accept (i : Instr) (s : State) : exec i s = s.accept (expand s.config i) := by
  cases i <;> rfl

/-- Everything an operation's accept can do. -/
theorem exec_cases {i : Instr} {s t : State} (h : exec i s = .next t) :
    (s.ready = true ∧ t = s.load (expand s.config i)) ∨ (s.ready = false ∧ t = s) := by
  rw [exec_eq_accept] at h
  exact State.accept_cases h

theorem exec_of_ready {s : State} (h : s.ready = true) (i : Instr) :
    exec i s = .next (s.load (expand s.config i)) := by
  rw [exec_eq_accept, State.accept_of_ready h]

theorem exec_of_not_ready {s : State} (h : s.ready = false) (i : Instr) : exec i s = .next s := by
  rw [exec_eq_accept, State.accept_of_not_ready h]

/-- No expansion is empty (10_state R34). -/
theorem expand_ne_nil (c : Config) (i : Instr) : expand c i ≠ [] := by
  cases i <;> simp [expand, startSeq, stopSeq, wbitSeq, rbitSeq, wbyteSeq, pulseSeq, sendSeq, waitSeq, bitsMsbFirst]

end Sys2Proof.Machine
end

