-- ==== Sys2Proof/Laws/Step.lean ====
section
/-! SUPPORT. Everything one step can do, case by case, and once as an inversion lemma. -/

namespace Sys2Proof.Machine

theorem step_of_reset {s : State} (h : s.resetNow = true) : step s = .next s.tick.doReset := by
  simp [step, h]

theorem step_of_busy {s : State} (h : s.resetNow = false) (hb : s.busy = true) : step s = s.tick.microStep := by
  simp [step, h, hb]

theorem step_of_refused {s : State} {r : IllegalReason} (h : s.resetNow = false) (hb : s.busy = false)
    (hr : s.refusal = some r) :
    step s = if s.tick.resetAhead then .next s.tick else .refused (.illegalWord r) := by
  simp [step, h, hb, hr]

theorem step_of_idle {s : State} (h : s.resetNow = false) (hb : s.busy = false) (hr : s.refusal = none)
    (hs : s.stream = []) : step s = .next s.tick := by
  simp [step, h, hb, hr, hs]

theorem step_of_legal {s : State} {w : Word} {rest : List Word} {i : Instr} (h : s.resetNow = false)
    (hb : s.busy = false) (hr : s.refusal = none) (hs : s.stream = w :: rest) (hd : decode w = .ok i) :
    step s = exec i s.tick.takeWord := by
  simp [step, h, hb, hr, hs, hd]

theorem step_of_illegal {s : State} {w : Word} {rest : List Word} {r : IllegalReason} (h : s.resetNow = false)
    (hb : s.busy = false) (hr : s.refusal = none) (hs : s.stream = w :: rest) (hd : decode w = .error r) :
    step s = .next (s.tick.takeWord.refuse r) := by
  simp [step, h, hb, hr, hs, hd]

/-- A step that answers a next state did one of six things. -/
theorem step_cases {s t : State} (h : step s = .next t) :
    (s.resetNow = true ∧ t = s.tick.doReset) ∨
    (s.resetNow = false ∧ s.busy = true ∧ ∃ m rest, s.seq = m :: rest ∧
      t = if rest.isEmpty then (State.perform m { s.tick with seq := rest }).complete
        else State.perform m { s.tick with seq := rest }) ∨
    (s.resetNow = false ∧ s.busy = false ∧ (∃ r, s.refusal = some r) ∧ s.tick.resetAhead = true ∧ t = s.tick) ∨
    (s.resetNow = false ∧ s.busy = false ∧ s.refusal = none ∧ s.stream = [] ∧ t = s.tick) ∨
    (s.resetNow = false ∧ s.busy = false ∧ s.refusal = none ∧ ∃ w rest i, s.stream = w :: rest ∧ decode w = .ok i ∧
      t = s.tick.takeWord.load (expand s.config i)) ∨
    (s.resetNow = false ∧ s.busy = false ∧ s.refusal = none ∧ ∃ w rest r, s.stream = w :: rest ∧ decode w = .error r ∧
      t = s.tick.takeWord.refuse r) := by
  cases h0 : s.resetNow with
  | true =>
    rw [step_of_reset h0] at h
    injection h with h
    exact .inl ⟨rfl, h.symm⟩
  | false =>
    refine .inr ?_
    cases hb : s.busy with
    | true =>
      rw [step_of_busy h0 hb] at h
      cases hq : s.seq with
      | nil => simp [State.microStep, hq] at h
      | cons m rest =>
        rw [State.microStep_of_cons (m := m) (rest := rest) (by simp [hq])] at h
        injection h with h
        exact .inl ⟨rfl, rfl, m, rest, rfl, h.symm⟩
    | false =>
      refine .inr ?_
      cases hr : s.refusal with
      | some r =>
        rw [step_of_refused h0 hb hr] at h
        split at h
        · injection h with h
          exact .inl ⟨rfl, rfl, ⟨r, rfl⟩, ‹_›, h.symm⟩
        · cases h
      | none =>
        refine .inr ?_
        cases hs : s.stream with
        | nil =>
          rw [step_of_idle h0 hb hr hs] at h
          injection h with h
          exact .inl ⟨rfl, rfl, rfl, rfl, h.symm⟩
        | cons w rest =>
          refine .inr ?_
          cases hd : decode w with
          | ok i =>
            rw [step_of_legal h0 hb hr hs hd] at h
            have hready : s.tick.takeWord.ready = true := (State.ready_iff _).2 ⟨by simp [hb], by simp [hr]⟩
            rw [exec_of_ready hready] at h
            injection h with h
            exact .inl ⟨rfl, rfl, rfl, w, rest, i, rfl, hd, by rw [← h]; simp⟩
          | error r =>
            rw [step_of_illegal h0 hb hr hs hd] at h
            injection h with h
            exact .inr ⟨rfl, rfl, rfl, w, rest, r, rfl, hd, h.symm⟩

end Sys2Proof.Machine
end

