-- ==== Sys2Proof/Laws/Run.lean ====
section
/-! SUPPORT. Running the sequencer to the end of a micro-sequence: the run of a busy block, as the fold of its micro-actions,
and what that fold does to the latches, the samples and the trace. -/

namespace Sys2Proof.Machine

open Sys2Proof.Safety

/-- The micro-actions of a sequence, one after the other. -/
def State.performAll (ms : List MicroAction) (s : State) : State := ms.foldl (fun t m => State.perform m t) s

@[simp] theorem State.performAll_nil (s : State) : State.performAll [] s = s := rfl

@[simp] theorem State.performAll_cons (m : MicroAction) (ms : List MicroAction) (s : State) :
    State.performAll (m :: ms) s = State.performAll ms (State.perform m s) := rfl

theorem State.performAll_append (a b : List MicroAction) (s : State) :
    State.performAll (a ++ b) s = State.performAll b (State.performAll a s) := by
  simp [State.performAll, List.foldl_append]

/-- A whole sequence keeps everything but the latches, the samples, the trace and the bus's draws. -/
theorem State.performAll_frame (ms : List MicroAction) (s : State) :
    (State.performAll ms s).config = s.config ∧ (State.performAll ms s).seq = s.seq ∧
    (State.performAll ms s).busy = s.busy ∧ (State.performAll ms s).result = s.result ∧
    (State.performAll ms s).refusal = s.refusal ∧ (State.performAll ms s).stream = s.stream ∧
    (State.performAll ms s).resetIn = s.resetIn ∧ (State.performAll ms s).cutTrace = s.cutTrace := by
  induction ms generalizing s with
  | nil => simp
  | cons m ms ih =>
    obtain ⟨h1, h2, h3, h4, h5, h6, h7, h8⟩ := ih (State.perform m s)
    simp [h1, h2, h3, h4, h5, h6, h7, h8]

theorem State.performAll_resume (ms : List MicroAction) (q : List MicroAction) (r : List Bool) (s : State) :
    State.performAll ms (State.resume q r s) = State.resume q r (State.performAll ms s) := by
  induction ms generalizing s with
  | nil => rfl
  | cons m ms ih => simp only [State.performAll_cons, State.perform_resume, ih]

/-! Runs compose. -/

theorem run_succ (n : Nat) (s t : State) (h : step s = .next t) : run (n + 1) s = run n t := by
  rw [run, h]

theorem run_add (a b : Nat) (s t : State) (h : run a s = .next t) : run (a + b) s = run b t := by
  induction a generalizing s with
  | zero =>
    have hst : s = t := Host.Outcome.next.inj h
    simp [hst]
  | succ a ih =>
    rw [Nat.add_right_comm]
    rw [run] at h ⊢
    cases hs : step s with
    | next s' =>
      rw [hs] at h
      exact ih s' h
    | fault f => simp [hs] at h
    | refused r => simp [hs] at h

/-! The reset schedule. -/

theorem quiet_now {n : Nat} {s : State} (h : Quiet (n + 1) s) : s.resetNow = false := by
  cases hr : s.resetIn with
  | nil => simp [State.resetNow, hr]
  | cons b rest => simpa [State.resetNow, hr] using h b (by simp [hr])

theorem quiet_later {n : Nat} {s t : State} (h : Quiet (n + 1) s) (ht : t.resetIn = s.resetIn.tail) : Quiet n t := by
  intro b hb
  rw [ht] at hb
  cases hr : s.resetIn with
  | nil => simp [hr] at hb
  | cons c rest =>
    rw [hr, List.tail_cons] at hb
    exact h b (by simp [hr, hb])

theorem quiet_mono {m n : Nat} {s : State} (h : Quiet n s) (hmn : m ≤ n) : Quiet m s := fun b hb =>
  h b (List.take_subset_take_left s.resetIn hmn hb)

/-! The run of a busy block. -/

/-- A micro-step that is not the last. -/
theorem step_within {s : State} {m : MicroAction} {rest : List MicroAction} (h : s.resetNow = false)
    (hb : s.busy = true) (hq : s.seq = m :: rest) (hr : rest ≠ []) :
    step s = .next (State.resume rest s.resetIn.tail (State.perform m s)) := by
  rw [step_of_busy h hb, State.microStep_of_cons (m := m) (rest := rest) (by simpa using hq), ← State.perform_resume]
  cases rest with
  | nil => exact absurd rfl hr
  | cons _ _ => rfl

/-- The last micro-step of an operation completes it. -/
theorem step_last {s : State} {m : MicroAction} (h : s.resetNow = false) (hb : s.busy = true) (hq : s.seq = [m]) :
    step s = .next (State.resume [] s.resetIn.tail (State.perform m s)).complete := by
  rw [step_of_busy h hb, State.microStep_of_cons (m := m) (rest := []) (by simpa using hq), ← State.perform_resume]
  rfl

/-- Before its last micro-action a busy block has done the first `k` of its sequence and has the rest to do. -/
theorem run_within {s : State} {ms : List MicroAction} (k : Nat) (hk : k < ms.length) (hb : s.busy = true)
    (hq : s.seq = ms) (hn : Quiet k s) :
    run k s =
      .next (State.resume (ms.drop k) (s.resetIn.drop k) (State.performAll (ms.take k) s)) := by
  induction k generalizing s ms with
  | zero => subst hq; rfl
  | succ k ih =>
    obtain ⟨m, rest, rfl⟩ : ∃ m rest, ms = m :: rest := by
      cases ms with
      | nil => simp at hk
      | cons m rest => exact ⟨m, rest, rfl⟩
    have hrest : rest ≠ [] := by
      intro h
      simp [h] at hk
    rw [run_succ _ _ _ (step_within (quiet_now hn) hb hq hrest), ih (ms := rest) (by simpa using hk) (by simpa using hb)
      (by simp) (quiet_later hn (by simp)), State.performAll_resume]
    simp

/-- A busy block runs its sequence to the end and completes, one step for each micro-action (10_state R35). -/
theorem run_sequence {s : State} {ms : List MicroAction} (hne : ms ≠ []) (hb : s.busy = true) (hq : s.seq = ms)
    (hn : Quiet ms.length s) :
    run ms.length s =
      .next (State.resume [] (s.resetIn.drop ms.length) (State.performAll ms s)).complete := by
  induction ms generalizing s with
  | nil => exact absurd rfl hne
  | cons m rest ih =>
    cases hr : rest with
    | nil =>
      subst hr
      rw [List.length_singleton, run_succ _ _ _ (step_last (quiet_now hn) hb hq), List.drop_one]
      rfl
    | cons m' rest' =>
      have hrest : rest ≠ [] := by simp [hr]
      rw [← hr, List.length_cons, run_succ _ _ _ (step_within (quiet_now hn) hb hq hrest),
        ih hrest (by simpa using hb) (by simp) (quiet_later hn (by simp)), State.performAll_resume]
      simp

/-! What a sequence does to the latches, the samples and the trace. -/

/-- The SDA latch is released at every sample of a sequence entered with the given latch. -/
def releasedAtSamples : Bit → List MicroAction → Bool
  | _, [] => true
  | d, .setScl _ :: ms => releasedAtSamples d ms
  | _, .setSda v :: ms => releasedAtSamples v ms
  | d, .delay _ :: ms => releasedAtSamples d ms
  | d, .sample :: ms => d && releasedAtSamples d ms

/-- The latches after a sequence of micro-actions. -/
def exitOf (cd : Bit × Bit) : List MicroAction → Bit × Bit
  | [] => cd
  | .setScl v :: ms => exitOf (v, cd.2) ms
  | .setSda v :: ms => exitOf (cd.1, v) ms
  | .delay _ :: ms => exitOf cd ms
  | .sample :: ms => exitOf cd ms

theorem exitOf_append (cd : Bit × Bit) (a b : List MicroAction) : exitOf cd (a ++ b) = exitOf (exitOf cd a) b := by
  induction a generalizing cd with
  | nil => rfl
  | cons m a ih => cases m <;> simp [exitOf, ih]

theorem releasedAtSamples_append (d : Bit) (c : Bit) (a b : List MicroAction) :
    releasedAtSamples d (a ++ b) = (releasedAtSamples d a && releasedAtSamples (exitOf (c, d) a).2 b) := by
  induction a generalizing d c with
  | nil => simp [releasedAtSamples, exitOf]
  | cons m a ih =>
    cases m with
    | setScl v => simpa [releasedAtSamples, exitOf] using ih d v
    | setSda v => simpa [releasedAtSamples, exitOf] using ih v c
    | delay k => simpa [releasedAtSamples, exitOf] using ih d c
    | sample => simp [releasedAtSamples, exitOf, ih d c, Bool.and_assoc]

@[simp] theorem samplesIn_nil : samplesIn [] = 0 := rfl
@[simp] theorem samplesIn_setScl (v : Bit) (ms : List MicroAction) : samplesIn (.setScl v :: ms) = samplesIn ms := by
  simp [samplesIn]
@[simp] theorem samplesIn_setSda (v : Bit) (ms : List MicroAction) : samplesIn (.setSda v :: ms) = samplesIn ms := by
  simp [samplesIn]
@[simp] theorem samplesIn_delay (k : DelayClass) (ms : List MicroAction) : samplesIn (.delay k :: ms) = samplesIn ms := by
  simp [samplesIn]
@[simp] theorem samplesIn_sample (ms : List MicroAction) : samplesIn (.sample :: ms) = samplesIn ms + 1 := by
  simp [samplesIn]
theorem samplesIn_append (a b : List MicroAction) : samplesIn (a ++ b) = samplesIn a + samplesIn b := by
  simp [samplesIn]

theorem State.comingLevels_length (n : Nat) (s : State) : (s.comingLevels n).length = n := by
  induction n generalizing s with
  | zero => rfl
  | succ n ih => simp [State.comingLevels, ih]

/-- The coming levels depend on the bus and the draws alone. -/
theorem State.comingLevels_congr (n : Nat) {s t : State} (hb : s.busIn = t.busIn) (hd : s.draws = t.draws) :
    s.comingLevels n = t.comingLevels n := by
  induction n generalizing s t with
  | zero => rfl
  | succ n ih =>
    have h : s.slaveSda = t.slaveSda := by simp [State.slaveSda, hb, hd]
    simp only [State.comingLevels, h]
    rw [ih (s := { s with busIn := s.busIn.tail, draws := s.draws + 1 })
      (t := { t with busIn := t.busIn.tail, draws := t.draws + 1 }) (by simp [hb]) (by simp [hd])]

/-- What a sequence with SDA released at its samples does: its exit latches, its samples, its events, its draws. -/
theorem State.performAll_effect (ms : List MicroAction) (s : State) (h : releasedAtSamples s.sdaOut ms = true) :
    ((State.performAll ms s).sclOut, (State.performAll ms s).sdaOut) = exitOf (s.sclOut, s.sdaOut) ms ∧
    (State.performAll ms s).samples = s.samples ++ s.comingLevels (samplesIn ms) ∧
    (State.performAll ms s).trace = s.trace ++ eventsOf ms (s.comingLevels (samplesIn ms)) ∧
    (State.performAll ms s).busIn = s.busIn.drop (samplesIn ms) ∧
    (State.performAll ms s).draws = s.draws + samplesIn ms := by
  induction ms generalizing s with
  | nil => simp [exitOf, State.comingLevels, eventsOf]
  | cons m ms ih =>
    cases m with
    | setScl v =>
      obtain ⟨h1, h2, h3, h4, h5⟩ := ih (State.perform (.setScl v) s) (by simpa [releasedAtSamples] using h)
      have hc := State.comingLevels_congr (samplesIn ms) (s := State.perform (.setScl v) s) (t := s) (by simp) (by simp)
      simp [h1, h2, h3, h4, h5, hc, exitOf, eventsOf]
    | setSda v =>
      obtain ⟨h1, h2, h3, h4, h5⟩ := ih (State.perform (.setSda v) s) (by simpa [releasedAtSamples] using h)
      have hc := State.comingLevels_congr (samplesIn ms) (s := State.perform (.setSda v) s) (t := s) (by simp) (by simp)
      simp [h1, h2, h3, h4, h5, hc, exitOf, eventsOf]
    | delay k =>
      obtain ⟨h1, h2, h3, h4, h5⟩ := ih (State.perform (.delay k) s) (by simpa [releasedAtSamples] using h)
      have hc := State.comingLevels_congr (samplesIn ms) (s := State.perform (.delay k) s) (t := s) (by simp) (by simp)
      simp [h1, h2, h3, h4, h5, hc, exitOf, eventsOf]
    | sample =>
      simp only [releasedAtSamples, Bool.and_eq_true] at h
      obtain ⟨h1, h2, h3, h4, h5⟩ := ih (State.perform .sample s) (by simpa using h.2)
      have hc := State.comingLevels_congr (samplesIn ms) (s := State.perform .sample s)
        (t := { s with busIn := s.busIn.tail, draws := s.draws + 1 }) (by simp) (by simp)
      have hl : (s.sdaOut && s.slaveSda) = s.slaveSda := by simp [h.1]
      rw [State.performAll_cons, h1, h2, h3, h4, h5, hc, samplesIn_sample]
      refine ⟨by simp [exitOf], by simp [hl, State.comingLevels], by simp [hl, eventsOf, State.comingLevels], by simp, ?_⟩
      simp only [State.perform_sample, State.sampleSda_draws]
      omega

/-- What a ready block does with a sequence it accepts: it loads it, runs it to the end, and completes. -/
theorem accept_run {s : State} {ms : List MicroAction} (hr : s.ready = true) (hne : ms ≠ [])
    (hrel : releasedAtSamples s.sdaOut ms = true) (hq : Quiet ms.length s) :
    ∃ u, s.accept ms = .next (s.load ms) ∧ Accepted s (s.load ms) ∧ run ms.length (s.load ms) = .next u ∧
      Completed ms.length (samplesIn ms) s u ∧
      u.trace = s.trace ++ eventsOf ms (s.comingLevels (samplesIn ms)) ∧ u.latches = exitOf s.latches ms := by
  obtain ⟨f1, -, -, -, f5, f6, -, f8⟩ := State.performAll_frame ms (s.load ms)
  obtain ⟨g1, g2, g3, g4, g5⟩ := State.performAll_effect ms (s.load ms) (by simpa using hrel)
  rw [State.comingLevels_congr (samplesIn ms) (s := s.load ms) (t := s) rfl rfl] at g2 g3
  have hsamples : (State.performAll ms (s.load ms)).samples = s.comingLevels (samplesIn ms) := by simpa using g2
  refine ⟨_, State.accept_of_ready hr ms, ⟨hne, rfl⟩, run_sequence hne rfl rfl (by simpa using hq), ?_, ?_, ?_⟩
  · exact
      { idle := rfl, seq := rfl, samples := by simpa using hsamples, result := by simp [hsamples],
        config := by simp [f1], refusal := by simp [f5], stream := by simp [f6], resetIn := by simp,
        busIn := by simp [g4], draws := by simp [g5], cutTrace := by simp [f8] }
  · simpa using g3
  · simpa [State.latches] using g1

end Sys2Proof.Machine
end

