-- ==== Sys2Proof/Laws/Observers.lean ====
section
/-! SUPPORT. What the observers (events, wires, timing, the reference device) read from two sequences one after the other. -/

namespace Sys2Proof.Machine

theorem eventsOf_append (a b : List MicroAction) (levels : List Bit) :
    eventsOf (a ++ b) levels = eventsOf a levels ++ eventsOf b (levels.drop (samplesIn a)) := by
  induction a generalizing levels with
  | nil => simp [eventsOf]
  | cons m a ih => cases m <;> simp [eventsOf, ih]

/-- The events of a sequence are its actions. -/
theorem eventsOf_action (ms : List MicroAction) (levels : List Bit) : (eventsOf ms levels).map Event.action = ms := by
  induction ms generalizing levels with
  | nil => rfl
  | cons m ms ih => cases m <;> simp [eventsOf, Event.action, ih]

theorem latchesAfter_append (cd : Bit × Bit) (a b : List Event) :
    latchesAfter cd (a ++ b) = latchesAfter (latchesAfter cd a) b := by
  simp [latchesAfter, List.foldl_append]

/-- The latches after the events of a sequence are its exit latches, whatever was sampled. -/
theorem latchesAfter_eventsOf (cd : Bit × Bit) (ms : List MicroAction) (levels : List Bit) :
    latchesAfter cd (eventsOf ms levels) = exitOf cd ms := by
  induction ms generalizing cd levels with
  | nil => rfl
  | cons m ms ih => cases m <;> exact ih _ _

theorem conditionsOf_append (cd : Bit × Bit) (a b : List Event) :
    conditionsOf cd (a ++ b) = conditionsOf cd a ++ conditionsOf (latchesAfter cd a) b := by
  induction a generalizing cd with
  | nil => rfl
  | cons e a ih => simp [conditionsOf, ih, latchesAfter]

theorem clockRises_append (cd : Bit × Bit) (a b : List Event) :
    clockRises cd (a ++ b) = clockRises cd a + clockRises (latchesAfter cd a) b := by
  induction a generalizing cd with
  | nil => simp [clockRises, latchesAfter]
  | cons e a ih => simp [clockRises, ih, latchesAfter, Nat.add_assoc]

theorem minTime_append (c : Config) (a b : List MicroAction) : minTime c (a ++ b) = minTime c a + minTime c b := by
  simp [minTime]

theorem delaysIn_append (a b : List MicroAction) : delaysIn (a ++ b) = delaysIn a ++ delaysIn b := by
  induction a with
  | nil => rfl
  | cons m a ih => cases m <;> simp [delaysIn, ih]

theorem minDurationAll_append (c : Config) (a b : List Instr) :
    minDurationAll c (a ++ b) = minDurationAll c a + minDurationAll c b := by
  simp [minDurationAll]

theorem Device.watch_append (d : Device) (a b : List Event) : d.watch (a ++ b) = (d.watch a).watch b := by
  simp [Device.watch, List.foldl_append]

/-- The levels the device leaves depend on the actions; the device itself does not look at what was sampled. -/
theorem Device.watch_eventsOf_congr (d : Device) (ms : List MicroAction) (l l' : List Bit) :
    d.watch (eventsOf ms l) = d.watch (eventsOf ms l') := by
  induction ms generalizing d l l' with
  | nil => rfl
  | cons m ms ih =>
    cases m with
    | setScl v => exact ih _ _ _
    | setSda v => exact ih _ _ _
    | delay k => exact ih _ _ _
    | sample => exact ih _ _ _

theorem Device.levelsFor_append (d : Device) (a b : List MicroAction) (levels : List Bit) :
    d.levelsFor (a ++ b) = d.levelsFor a ++ (d.watch (eventsOf a levels)).levelsFor b := by
  induction a generalizing d levels with
  | nil => rfl
  | cons m a ih =>
    cases m with
    | setScl v => exact ih _ _
    | setSda v => exact ih _ _
    | delay k => exact ih _ _
    | sample => exact congrArg _ (ih _ _)

end Sys2Proof.Machine
end

