-- ==== Sys2Proof/Laws/Sequences.lean ====
section
/-! SUPPORT. For the byte sequence and the pulse sequence, once each: length, samples, exit latches, SDA released at samples,
events. The later ones are put together from the earlier, never by running a long list. -/

namespace Sys2Proof.Machine

open Sys2Proof.Safety

@[simp] theorem length_wbyteSeq (d : Byte) : (wbyteSeq d).length = 45 := rfl

@[simp] theorem samplesIn_wbyteSeq (d : Byte) : samplesIn (wbyteSeq d) = 1 := rfl

@[simp] theorem exitOf_wbyteSeq (cd : Bit × Bit) (d : Byte) : exitOf cd (wbyteSeq d) = (false, true) := rfl

@[simp] theorem released_wbyteSeq (b : Bit) (d : Byte) : releasedAtSamples b (wbyteSeq d) = true := rfl

/-- The events of a byte are `BY` with the sampled ACK. -/
theorem eventsOf_wbyteSeq (d : Byte) (ack : Bit) (levels : List Bit) :
    eventsOf (wbyteSeq d) (ack :: levels) = byEvents d ack := rfl

@[simp] theorem length_pulseSeq (c : Config) (n : Nibble) (rs : Bit) : (pulseSeq c n rs).length = 150 := by
  simp [pulseSeq, startSeq, stopSeq]

@[simp] theorem samplesIn_pulseSeq (c : Config) (n : Nibble) (rs : Bit) : samplesIn (pulseSeq c n rs) = 3 := by
  simp [pulseSeq, startSeq, stopSeq, samplesIn_append]

@[simp] theorem exitOf_pulseSeq (cd : Bit × Bit) (c : Config) (n : Nibble) (rs : Bit) :
    exitOf cd (pulseSeq c n rs) = (true, true) := by
  simp [pulseSeq, startSeq, stopSeq, exitOf_append, exitOf]

@[simp] theorem released_pulseSeq (b : Bit) (c : Config) (n : Nibble) (rs : Bit) :
    releasedAtSamples b (pulseSeq c n rs) = true := by
  simp [pulseSeq, startSeq, stopSeq, releasedAtSamples_append _ false, releasedAtSamples]

/-- The events of a pulse are its transaction with the three sampled ACKs. -/
theorem eventsOf_pulseSeq (c : Config) (n : Nibble) (rs a0 a1 a2 : Bit) (levels : List Bit) :
    eventsOf (pulseSeq c n rs) (a0 :: a1 :: a2 :: levels) =
      transaction (addrByte c) (tb c n rs true) (tb c n rs false) a0 a1 a2 := by
  have hst : ∀ l, eventsOf startSeq l = stEvents := fun _ => rfl
  have hsp : ∀ l, eventsOf stopSeq l = spEvents := fun _ => rfl
  have hd : ∀ l, eventsOf [.delay .settle] l = [.delay .settle] := fun _ => rfl
  have h0 : samplesIn startSeq = 0 := rfl
  have h1 : samplesIn [.delay .settle] = 0 := rfl
  simp only [pulseSeq, transaction, eventsOf_append, samplesIn_append, samplesIn_wbyteSeq, h0, h1, hst, hsp, hd,
    List.drop_zero, List.drop_succ_cons, Nat.zero_add, Nat.add_zero, Nat.reduceAdd, eventsOf_wbyteSeq]

end Sys2Proof.Machine
end

