-- ==== Sys2Proof/Laws/Device.lean ====
section
/-! SUPPORT. What the reference device makes of the bus forms of 95_test_vectors: a START, a bit, a byte, a STOP, a whole
transaction, and the levels it leaves at their samples. A claim about the device cites these and unfolds no event. -/

namespace Sys2Proof.Machine

open Sys2Proof.Safety

/-- A byte with one more bit shifted in at the low end. -/
@[irreducible] def shiftIn (s : Byte) (b : Bit) : Byte := (s <<< 1) ||| (BitVec.ofBool b).setWidth 8

/-- Eight bits shifted in, most significant first, are the byte. -/
theorem shiftIn_eight (s d : Byte) :
    shiftIn (shiftIn (shiftIn (shiftIn (shiftIn (shiftIn (shiftIn (shiftIn s (d.getLsbD 7)) (d.getLsbD 6)) (d.getLsbD 5))
      (d.getLsbD 4)) (d.getLsbD 3)) (d.getLsbD 2)) (d.getLsbD 1)) (d.getLsbD 0) = d := by
  apply BitVec.eq_of_getLsbD_eq
  intro i hi
  have : i = 0 ∨ i = 1 ∨ i = 2 ∨ i = 3 ∨ i = 4 ∨ i = 5 ∨ i = 6 ∨ i = 7 := by omega
  rcases this with h | h | h | h | h | h | h | h <;> subst h <;> simp [shiftIn]

/-- The address byte is the one the device at DEV_ADDR7 answers to. -/
theorem addrByte_eq (c : Config) : addrByte c = c.devAddr7 ++ 0#1 := rfl

/-- Every field of a transport byte under a legal bit map. -/
theorem tb_fields (c : Config) (n : Nibble) (rs en : Bit) (h : c.bitMap.Legal) :
    (tb c n rs en).extractLsb' 4 4 = n ∧ (tb c n rs en).getLsbD c.bitMap.rwBit.val = false ∧
    (tb c n rs en).getLsbD c.bitMap.enBit.val = en ∧ (tb c n rs en).getLsbD c.bitMap.rsBit.val = rs := by
  revert h
  unfold tb blv blMask enMask rsMask BitMap.Legal
  obtain ⟨_, bl, ⟨a, b, e, l⟩, _, _, _, _, _, _⟩ := c
  simp only
  revert bl a b e l n rs en
  decide +kernel

/-- A delay other than the power-on one is nothing to the device. -/
theorem Device.watch_delay (d : Device) (k : DelayClass) (h : k ≠ .poweron) : d.watch [.delay k] = d := if_neg h

/-- The power-on delay begins a bring-up. -/
theorem Device.watch_poweron (d : Device) : d.watch [.delay .poweron] = { d with bringUp := bringUpNibbles } := rfl

section forms

variable (a : BitVec 7) (m : BitMap) (scl sda : Bit) (ph : BusPhase) (cl : Nat) (sh po : Byte) (it : Interface)
  (bu : List Nibble) (st : Nat) (rc : List Received)

theorem Device.watch_start : Device.watch ⟨a, m, true, true, .idle, cl, sh, po, it, bu, st, rc⟩ stEvents =
    ⟨a, m, false, false, .address, 0, sh, po, it, bu, st, rc⟩ := by
  simp [Device.watch, stEvents, Device.see, Device.seeSda, Device.wire, Device.slaveSda, Device.acks, Device.clockFall]

theorem Device.watch_stop : Device.watch ⟨a, m, false, sda, .selected, 0, sh, po, it, bu, st, rc⟩ spEvents =
    ⟨a, m, true, true, .idle, 0, shiftIn sh false, po, it, bu, st, rc⟩ := by
  simp [Device.watch, spEvents, Device.see, Device.seeSda, Device.wire, Device.slaveSda, Device.acks, Device.clockRise, shiftIn]

/-- A write bit is shifted in, in the address byte and in a byte of a selected device. -/
theorem Device.watch_wb (b : Bit) (hc : cl < 8) (hp : ph = .address ∨ ph = .selected) :
    Device.watch ⟨a, m, false, sda, ph, cl, sh, po, it, bu, st, rc⟩ (wbEvents b) =
      ⟨a, m, false, b, ph, cl + 1, shiftIn sh b, po, it, bu, st, rc⟩ := by
  have h8 : (cl == 8) = false := beq_eq_false_iff_ne.2 (by omega)
  have h9 : (cl == 9) = false := beq_eq_false_iff_ne.2 (by omega)
  have h9' : (cl + 1 == 9) = false := beq_eq_false_iff_ne.2 (by omega)
  rcases hp with rfl | rfl <;>
    simp [Device.watch, wbEvents, Device.see, Device.seeSda, Device.wire, Device.slaveSda, Device.clockRise, Device.clockFall,
      hc, shiftIn, h8, h9, h9']

/-- A read bit ends the byte. -/
theorem Device.watch_rb (s : Bit) (hp : ph = .address ∨ ph = .selected) :
    Device.watch ⟨a, m, false, sda, ph, 8, sh, po, it, bu, st, rc⟩ (rbEvents s) =
      { Device.endByte ⟨a, m, true, true, ph, 9, sh, po, it, bu, st, rc⟩ with scl := false } := by
  rcases hp with rfl | rfl <;>
    simp [Device.watch, rbEvents, Device.see, Device.seeSda, Device.clockRise, Device.clockFall]

/-- A byte and its ACK bit, whatever was sampled. -/
theorem Device.watch_by (d : Byte) (s : Bit) (hp : ph = .address ∨ ph = .selected) :
    Device.watch ⟨a, m, false, sda, ph, 0, sh, po, it, bu, st, rc⟩ (byEvents d s) =
      { Device.endByte ⟨a, m, true, true, ph, 9, d, po, it, bu, st, rc⟩ with scl := false } := by
  simp only [byEvents, Device.watch_append]
  rw [Device.watch_wb (hc := by decide) (hp := hp), Device.watch_wb (hc := by decide) (hp := hp),
    Device.watch_wb (hc := by decide) (hp := hp), Device.watch_wb (hc := by decide) (hp := hp),
    Device.watch_wb (hc := by decide) (hp := hp), Device.watch_wb (hc := by decide) (hp := hp),
    Device.watch_wb (hc := by decide) (hp := hp), Device.watch_wb (hc := by decide) (hp := hp), shiftIn_eight,
    Device.watch_rb (hp := hp)]

/-- The device's own address byte selects it. -/
theorem Device.watch_address (d : Byte) (s : Bit) (hd : d = a ++ 0#1) :
    Device.watch ⟨a, m, false, sda, .address, 0, sh, po, it, bu, st, rc⟩ (byEvents d s) =
      ⟨a, m, false, true, .selected, 0, d, po, it, bu, st, rc⟩ := by
  rw [Device.watch_by (hp := .inl rfl)]
  simp [Device.endByte, Device.addressed, ← hd]

/-- A data byte of a selected device goes to its port. -/
theorem Device.watch_data (d : Byte) (s : Bit) :
    Device.watch ⟨a, m, false, sda, .selected, 0, sh, po, it, bu, st, rc⟩ (byEvents d s) =
      { Device.writePort d ⟨a, m, true, true, .selected, 0, d, po, it, bu, st, rc⟩ with scl := false } := by
  rw [Device.watch_by (hp := .inr rfl)]
  rfl

/-- A port byte with EN set latches nothing. -/
theorem Device.writePort_set (d : Byte) (h : d.getLsbD m.enBit.val = true) :
    Device.writePort d ⟨a, m, scl, sda, ph, cl, sh, po, it, bu, st, rc⟩ = ⟨a, m, scl, sda, ph, cl, sh, d, it, bu, st, rc⟩ := by
  simp [Device.writePort, h]

end forms

section latch

variable (d : Device) (n : Nibble) (rs : Bit)

@[simp] theorem Device.latch_address : (d.latch n rs).address = d.address := rfl
@[simp] theorem Device.latch_bitMap : (d.latch n rs).bitMap = d.bitMap := rfl
@[simp] theorem Device.latch_scl : (d.latch n rs).scl = d.scl := rfl
@[simp] theorem Device.latch_sda : (d.latch n rs).sda = d.sda := rfl
@[simp] theorem Device.latch_phase : (d.latch n rs).phase = d.phase := rfl
@[simp] theorem Device.latch_strobes : (d.latch n rs).strobes = d.strobes + 1 := rfl

end latch

/-- One enable pulse, on an idle device at the block's address with the block's map, the bus released: one nibble for the controller,
and the device idle again. -/
theorem Device.watch_transaction (c : Config) (n : Nibble) (rs : Bit) (d : Device) (a0 a1 a2 : Bit) (hl : c.bitMap.Legal)
    (ha : d.address = c.devAddr7) (hm : d.bitMap = c.bitMap) (h1 : d.scl = true) (h2 : d.sda = true) (hp : d.phase = .idle) :
    ∃ sh, d.watch (transaction (addrByte c) (tb c n rs true) (tb c n rs false) a0 a1 a2) =
      { d.latch n rs with phase := .idle, clocks := 0, shift := sh, port := tb c n rs false } := by
  obtain ⟨-, -, t1, -⟩ := tb_fields c n rs true hl
  obtain ⟨u1, u2, u3, u4⟩ := tb_fields c n rs false hl
  obtain ⟨a, m, scl, sda, ph, cl, sh, po, it, bu, st, rc⟩ := d
  simp only at ha hm h1 h2 hp
  subst ha hm h1 h2 hp
  have e := addrByte_eq c
  generalize addrByte c = A at e ⊢
  generalize tb c n rs true = B at *
  generalize tb c n rs false = C at *
  refine ⟨shiftIn C false, ?_⟩
  simp only [transaction, Device.watch_append, Device.watch_delay _ .settle (by decide)]
  rw [Device.watch_start, Device.watch_address (hd := e), Device.watch_data, Device.writePort_set (h := t1)]
  simp only
  rw [Device.watch_data]
  simp [Device.writePort, Device.latch, t1, u1, u2, u3, u4, Device.watch_stop]

/-- What one enable pulse does to an idle device at the block's address with the block's map, the bus released, whatever was
sampled: one nibble for the controller, the device idle again, the bus released. -/
theorem Device.watch_pulse (c : Config) (n : Nibble) (rs : Bit) (d : Device) (levels : List Bit) (hl : c.bitMap.Legal)
    (ha : d.address = c.devAddr7) (hm : d.bitMap = c.bitMap) (h1 : d.scl = true) (h2 : d.sda = true) (hp : d.phase = .idle) :
    ∃ sh, d.watch (eventsOf (pulseSeq c n rs) levels) =
      { d.latch n rs with phase := .idle, clocks := 0, shift := sh, port := tb c n rs false } := by
  obtain ⟨sh, h⟩ := Device.watch_transaction c n rs d true true true hl ha hm h1 h2 hp
  exact ⟨sh, by rw [Device.watch_eventsOf_congr d _ levels [true, true, true], eventsOf_pulseSeq, h]⟩

/-- A whole send: two nibbles for the controller, the high one first, the device idle again, the bus released. -/
theorem Device.watch_send (c : Config) (b : Byte) (rs : Bit) (d : Device) (levels : List Bit) (hl : c.bitMap.Legal)
    (ha : d.address = c.devAddr7) (hm : d.bitMap = c.bitMap) (h1 : d.scl = true) (h2 : d.sda = true) (hp : d.phase = .idle) :
    ∃ sh po, d.watch (eventsOf (sendSeq c b rs) levels) =
      { (d.latch (highNibble b) rs).latch (lowNibble b) rs with phase := .idle, clocks := 0, shift := sh, port := po } := by
  obtain ⟨sh, h⟩ := Device.watch_pulse c (highNibble b) rs d levels hl ha hm h1 h2 hp
  rw [sendSeq, eventsOf_append, Device.watch_append, h]
  obtain ⟨sh', h'⟩ := Device.watch_pulse c (lowNibble b) rs
    { d.latch (highNibble b) rs with phase := .idle, clocks := 0, shift := sh, port := tb c (highNibble b) rs false }
    (levels.drop (samplesIn (pulseSeq c (highNibble b) rs))) hl ha hm h1 h2 rfl
  exact ⟨sh', _, h'⟩

/-- The four nibbles of a bring-up leave 4-bit mode on a byte boundary and the bring-up done, whatever the width and the nibble
phase were. -/
theorem Device.latch_bringUp (d : Device) (h : d.bringUp = bringUpNibbles) :
    let t := (((d.latch 3#4 false).latch 3#4 false).latch 3#4 false).latch 2#4 false
    t.OnByteBoundary ∧ t.bringUp = [] ∧ (d.interface = .unknown → t.received = d.received) := by
  refine ⟨⟨?_, ?_⟩, ?_, fun hi => ?_⟩ <;> simp [Device.latch, Interface.take, bringUpAfter, bringUpNibbles, *]

/-- A nibble on a controller that waits for a high one, and is not due the last of a bring-up, waits itself. -/
theorem Device.latch_high (d : Device) (n : Nibble) (rs : Bit) (h : d.interface = .fourBit none) (hb : d.bringUp ≠ [n]) :
    d.latch n rs =
      { d with interface := .fourBit (some n), bringUp := bringUpAfter d.bringUp n rs, strobes := d.strobes + 1 } := by
  simp [Device.latch, Interface.take, h, hb]

/-- A nibble on a controller that waits for a low one completes a byte, and the next nibble is a high one. -/
theorem Device.latch_low (d : Device) (high n : Nibble) (rs : Bit) (h : d.interface = .fourBit (some high)) :
    d.latch n rs =
      { d with interface := .fourBit none, bringUp := bringUpAfter d.bringUp n rs, strobes := d.strobes + 1,
               received := d.received ++ [{ rs := rs, byte := high ++ n }] } := by
  simp [Device.latch, Interface.take, h]

/-- Two nibbles take none or two of the nibbles of a bring-up that has an even number left, or end it. -/
theorem bringUpAfter_even (l : List Nibble) (n n' : Nibble) (rs : Bit) (h : l.length % 2 = 0) :
    (bringUpAfter (bringUpAfter l n rs) n' rs).length % 2 = 0 := by
  match l, h with
  | [], _ => rfl
  | [_], h => simp at h
  | x :: y :: l, h =>
    have : l.length % 2 = 0 := by simp at h; omega
    by_cases h1 : n = x ∧ rs = false
    · rw [bringUpAfter, if_pos h1, bringUpAfter]
      split <;> simp [this]
    · rw [bringUpAfter, if_neg h1]
      rfl

/-- The two nibbles of a byte on a controller that waits for a high one: the byte is received, and it waits for a high one again. -/
theorem Device.latch_byte (d : Device) (b : Byte) (rs : Bit) (h : d.OnByteBoundary) :
    (d.latch (highNibble b) rs).latch (lowNibble b) rs =
      { d with bringUp := bringUpAfter (bringUpAfter d.bringUp (highNibble b) rs) (lowNibble b) rs, strobes := d.strobes + 2,
               received := d.received ++ [{ rs := rs, byte := b }] } ∧
      ((d.latch (highNibble b) rs).latch (lowNibble b) rs).OnByteBoundary := by
  have e : highNibble b ++ lowNibble b = b := by revert b; decide
  have hb : d.bringUp ≠ [highNibble b] := fun x => by have := h.2; simp [x] at this
  rw [Device.latch_high d _ rs h.1 hb, Device.latch_low _ (highNibble b) _ rs rfl, e]
  refine ⟨?_, rfl, bringUpAfter_even _ _ _ _ h.2⟩
  rw [← h.1]

/-- A sequence that samples nothing has no levels. -/
theorem Device.levelsFor_nil (d : Device) (ms : List MicroAction) (h : samplesIn ms = 0) : d.levelsFor ms = [] := by
  induction ms generalizing d with
  | nil => rfl
  | cons m ms ih =>
    cases m with
    | sample => simp at h
    | _ => exact ih _ (by simpa using h)

/-- The one level a device leaves in a byte: low if it acknowledges it. -/
theorem Device.levelsFor_byte (a : BitVec 7) (m : BitMap) (sda : Bit) (ph : BusPhase) (sh po : Byte) (it : Interface)
    (bu : List Nibble) (st : Nat) (rc : List Received) (d : Byte) (hp : ph = .address ∨ ph = .selected) :
    Device.levelsFor ⟨a, m, false, sda, ph, 0, sh, po, it, bu, st, rc⟩ (wbyteSeq d) =
      [!Device.acks ⟨a, m, true, true, ph, 9, d, po, it, bu, st, rc⟩] := by
  have e : eventsOf ((bitsMsbFirst d).flatMap wbitSeq) [] = wbEvents (d.getLsbD 7) ++ wbEvents (d.getLsbD 6)
      ++ wbEvents (d.getLsbD 5) ++ wbEvents (d.getLsbD 4) ++ wbEvents (d.getLsbD 3) ++ wbEvents (d.getLsbD 2)
      ++ wbEvents (d.getLsbD 1) ++ wbEvents (d.getLsbD 0) := rfl
  rw [wbyteSeq, Device.levelsFor_append _ _ _ [], Device.levelsFor_nil _ _ rfl, e]
  simp only [Device.watch_append]
  rw [Device.watch_wb (hc := by decide) (hp := hp), Device.watch_wb (hc := by decide) (hp := hp),
    Device.watch_wb (hc := by decide) (hp := hp), Device.watch_wb (hc := by decide) (hp := hp),
    Device.watch_wb (hc := by decide) (hp := hp), Device.watch_wb (hc := by decide) (hp := hp),
    Device.watch_wb (hc := by decide) (hp := hp), Device.watch_wb (hc := by decide) (hp := hp), shiftIn_eight]
  rcases hp with rfl | rfl <;>
    simp [Device.levelsFor, rbitSeq, Device.see, Device.seeSda, Device.clockRise, Device.slaveSda, Device.acks, Device.addressed]

/-- An idle device at the block's address acknowledges all three bytes of a pulse. -/
theorem Device.levelsFor_pulse (c : Config) (n : Nibble) (rs : Bit) (d : Device) (hl : c.bitMap.Legal)
    (ha : d.address = c.devAddr7) (hm : d.bitMap = c.bitMap) (h1 : d.scl = true) (h2 : d.sda = true)
    (hp : d.phase = .idle) :
    d.levelsFor (pulseSeq c n rs) = [false, false, false] := by
  obtain ⟨-, -, t1, -⟩ := tb_fields c n rs true hl
  obtain ⟨a, m, scl, sda, ph, cl, sh, po, it, bu, st, rc⟩ := d
  simp only at ha hm h1 h2 hp
  subst ha hm h1 h2 hp
  have e := addrByte_eq c
  have hb (x : Byte) : eventsOf (wbyteSeq x) [] = byEvents x true := rfl
  have hst : eventsOf startSeq [] = stEvents := rfl
  have hd (k : DelayClass) : eventsOf [.delay k] [] = [.delay k] := rfl
  simp only [pulseSeq]
  generalize addrByte c = A at e ⊢
  generalize tb c n rs true = B at *
  generalize tb c n rs false = C at *
  simp only [List.append_assoc]
  rw [Device.levelsFor_append _ startSeq _ [], Device.levelsFor_nil _ startSeq rfl, hst, Device.watch_start,
    Device.levelsFor_append _ (wbyteSeq A) _ [], Device.levelsFor_byte (hp := .inl rfl), hb, Device.watch_address (hd := e),
    Device.levelsFor_append _ (wbyteSeq B) _ [], Device.levelsFor_byte (hp := .inr rfl), hb, Device.watch_data,
    Device.writePort_set (h := t1), Device.levelsFor_append _ [.delay .settle] _ [],
    Device.levelsFor_nil _ [.delay .settle] rfl, hd, Device.watch_delay _ .settle (by decide),
    Device.levelsFor_append _ (wbyteSeq C) _ [], Device.levelsFor_byte (hp := .inr rfl), Device.levelsFor_nil _ _ rfl]
  simp [Device.acks, Device.addressed, e]

end Sys2Proof.Machine
end

