-- ==== Sys2Proof/Laws/PerInstr.lean ====
section
/-! SUPPORT. One lemma per instruction: the word `encode` gives it carries the match bits of its own row of the opcode map
(30_encoding R63). -/

namespace Sys2Proof.Laws.F

/-- The masked bits of an operation's word are the match bits of its row of the opcode map. -/
def Statement (i : Instr) : Prop :=
  (opcodeMap[i.rowIndex]?).map (fun r => encode i &&& r.mask) = (opcodeMap[i.rowIndex]?).map OpcodeRow.pattern

theorem i2cStart : Statement .i2cStart := by unfold Statement; decide

theorem i2cStop : Statement .i2cStop := by unfold Statement; decide

theorem i2cWbit (b : Bit) : Statement (.i2cWbit b) := by unfold Statement; revert b; decide

theorem i2cRbit : Statement .i2cRbit := by unfold Statement; decide

theorem i2cWbyte (d : Byte) : Statement (.i2cWbyte d) := by unfold Statement; revert d; decide

theorem lcdPulse (n : Nibble) (rs : Bit) : Statement (.lcdPulse n rs) := by unfold Statement; revert n rs; decide

theorem lcdCmd (d : Byte) : Statement (.lcdCmd d) := by unfold Statement; revert d; decide

theorem lcdData (d : Byte) : Statement (.lcdData d) := by unfold Statement; revert d; decide

theorem wait (k : DelayClass) : Statement (.wait k) := by cases k <;> (unfold Statement; decide)

end Sys2Proof.Laws.F
end

