-- ==== Sys2Proof/Tests/Slice0.lean ====
section
/-! SUPPORT. The model's own tests. Expected values are the spec's: each test names the vector (95_test_vectors) or the rule it
takes them from. The last part gives, for every statement with hypotheses, a state and operands that meet them. -/

namespace Sys2Proof.Tests.Slice0

open Sys2Proof Sys2Proof.Machine Sys2Proof.Safety

/-! ## Ill-formed source lines (30_encoding R72; 43_lcd_command_interface R156), one per check -/

theorem test_wf_wbit : (AsmLine.i2cWbit 2).wellFormed = false ∧ (AsmLine.i2cWbit 1).wellFormed = true := by decide

theorem test_wf_wbyte : (AsmLine.i2cWbyte 256).wellFormed = false ∧ (AsmLine.i2cWbyte 255).wellFormed = true := by decide

theorem test_wf_pulse_nibble : (AsmLine.lcdPulse 16 0).wellFormed = false ∧ (AsmLine.lcdPulse 15 1).wellFormed = true := by
  decide

theorem test_wf_pulse_select : (AsmLine.lcdPulse 0 2).wellFormed = false := by decide

theorem test_wf_cmd : (AsmLine.lcdCmd 256).wellFormed = false ∧ (AsmLine.lcdCmd 255).wellFormed = true := by decide

theorem test_wf_data : (AsmLine.lcdData 256).wellFormed = false ∧ (AsmLine.lcdData 255).wellFormed = true := by decide

theorem test_wf_command : (AsmLine.lcdCommand 256).wellFormed = false ∧ (AsmLine.lcdCommand 255).wellFormed = true := by
  decide

/-- V52, both halves; and V50. -/
theorem test_wf_cursor : (AsmLine.lcdSetCursor 2 0).wellFormed = false ∧ (AsmLine.lcdSetCursor 0 64).wellFormed = false ∧
    (AsmLine.lcdSetCursor 1 63).wellFormed = true := by decide

theorem test_wf_print : (AsmLine.lcdPrint [0x41, 256]).wellFormed = false ∧ (AsmLine.lcdPrint []).wellFormed = true := by
  decide

/-! ## Words (V2 to V11a), each written out bit by bit from the formats of 30_encoding R61 -/

/-- V2, V3, V5: format Z, `oooo 0000 0000 0000`. -/
theorem test_decode_z : decode 0b0001_0000_0000_0000#16 = .ok .i2cStart ∧ decode 0b0010_0000_0000_0000#16 = .ok .i2cStop ∧
    decode 0b0100_0000_0000_0000#16 = .ok .i2cRbit := by decide

/-- V4: format B, `oooo 0000 0000 000b`. -/
theorem test_decode_b : decode 0b0011_0000_0000_0000#16 = .ok (.i2cWbit false) ∧
    decode 0b0011_0000_0000_0001#16 = .ok (.i2cWbit true) := by decide

/-- V6: format Y, `oooo 0000 dddd dddd`. -/
theorem test_decode_y : decode 0b0101_0000_0000_0000#16 = .ok (.i2cWbyte 0x00#8) ∧
    decode 0b0101_0000_1111_1111#16 = .ok (.i2cWbyte 0xFF#8) ∧
    decode 0b0101_0000_0100_1110#16 = .ok (.i2cWbyte 0x4E#8) := by decide

/-- V7: format N, `oooo 0000 nnnn 000r`. -/
theorem test_decode_n : decode 0b0110_0000_0000_0000#16 = .ok (.lcdPulse 0#4 false) ∧
    decode 0b0110_0000_0100_0001#16 = .ok (.lcdPulse 4#4 true) ∧
    decode 0b0110_0000_1111_0001#16 = .ok (.lcdPulse 15#4 true) := by decide

/-- V8: format S, `oooo 000r dddd dddd`. -/
theorem test_decode_s : decode 0b0111_0000_0000_0000#16 = .ok (.lcdCmd 0x00#8) ∧
    decode 0b0111_0001_0100_0001#16 = .ok (.lcdData 0x41#8) ∧
    decode 0b0111_0001_1111_1111#16 = .ok (.lcdData 0xFF#8) := by decide

/-- V9: format K, `oooo 0000 0000 0kkk`. -/
theorem test_decode_k : decode 0b1000_0000_0000_0000#16 = .ok (.wait .bit) ∧
    decode 0b1000_0000_0000_0001#16 = .ok (.wait .settle) ∧ decode 0b1000_0000_0000_0010#16 = .ok (.wait .cmd) ∧
    decode 0b1000_0000_0000_0011#16 = .ok (.wait .clear) ∧ decode 0b1000_0000_0000_0100#16 = .ok (.wait .poweron) := by decide

/-- V10. -/
theorem test_decode_bad_opcode : decode 0x0000#16 = .error .badOpcode ∧ decode 0x9000#16 = .error .badOpcode ∧
    decode 0xF000#16 = .error .badOpcode ∧ decode 0xFFFF#16 = .error .badOpcode := by decide

/-- V11. -/
theorem test_decode_reserved : decode 0x1001#16 = .error .reservedBitSet ∧ decode 0x2800#16 = .error .reservedBitSet ∧
    decode 0x3002#16 = .error .reservedBitSet ∧ decode 0x4001#16 = .error .reservedBitSet ∧
    decode 0x5100#16 = .error .reservedBitSet ∧ decode 0x6002#16 = .error .reservedBitSet ∧
    decode 0x600F#16 = .error .reservedBitSet ∧ decode 0x7200#16 = .error .reservedBitSet ∧
    decode 0x8008#16 = .error .reservedBitSet := by decide

/-- V11a. -/
theorem test_decode_delay_class : decode 0x8005#16 = .error .badDelayClass ∧ decode 0x8006#16 = .error .badDelayClass ∧
    decode 0x8007#16 = .error .badDelayClass := by decide

/-- The encoder against the word column of 30_encoding R72 (V7, V8, V9). -/
theorem test_encode : encode (.lcdPulse 4#4 true) = 0x6041#16 ∧ encode (.lcdData 0x41#8) = 0x7141#16 ∧
    encode (.wait .poweron) = 0x8004#16 ∧ encode (.i2cWbit true) = 0x3001#16 := by decide

/-- The table's bits 15..0 are the operation word (20_memory R47; spec/opcode_table.json). -/
theorem test_table_word : decodeTableWord 16 0x7028 = some (.lcdCmd 0x28#8) ∧ decodeTableWord 16 0x0000 = none := by decide

/-! ## Expansions -/

/-- V14: `ST`, `A(1) L(1) Db A(0) Db L(0)`. -/
theorem test_start : eventsOf startSeq [] =
    [.setSda true, .setScl true, .delay .bit, .setSda false, .delay .bit, .setScl false] := by decide

/-- V18: `SP`, `L(0) A(0) Db L(1) Db A(1) Db`. -/
theorem test_stop : eventsOf stopSeq [] =
    [.setScl false, .setSda false, .delay .bit, .setScl true, .delay .bit, .setSda true, .delay .bit] := by decide

/-- V23: `A(0) Db L(1) Db L(0)`. -/
theorem test_wbit : eventsOf (wbitSeq false) [] =
    [.setSda false, .delay .bit, .setScl true, .delay .bit, .setScl false] := by decide

/-- V27: `A(1) Db L(1) Smp(1) L(0)`. -/
theorem test_rbit : eventsOf rbitSeq [true] =
    [.setSda true, .delay .bit, .setScl true, .sample true, .setScl false] := by decide

/-- V12, V13b: the bits sent, most significant first. -/
theorem test_wbyte_bits : bitsMsbFirst 0x4E#8 = [false, true, false, false, true, true, true, false] ∧
    bitsMsbFirst 0xA5#8 = [true, false, true, false, false, true, false, true] := by decide

/-- The example of 41_byte_transfer R120, its first two bits and its ACK. -/
theorem test_wbyte_events : (eventsOf (wbyteSeq 0x4E#8) [false]).take 10 =
      [.setSda false, .delay .bit, .setScl true, .delay .bit, .setScl false,
       .setSda true, .delay .bit, .setScl true, .delay .bit, .setScl false] ∧
    (eventsOf (wbyteSeq 0x4E#8) [false]).drop 40 =
      [.setSda true, .delay .bit, .setScl true, .sample false, .setScl false] := by decide

/-- The configuration the vectors assume, with durations picked for these tests alone. -/
def board : Config :=
  { devAddr7 := 0x27#7, backlight := true, bitMap := BitMap.default, tBit := 5, tSettle := 1, tCmd := 50, tClear := 2000,
    tPoweron := 50000, displayCols := 16 }

/-- The board with BACKLIGHT 0. -/
def darkBoard : Config := { board with backlight := false }

/-- The board at address 0x3F, with its control bits in another order. -/
def otherBoard : Config := { board with devAddr7 := 0x3F#7, bitMap := { rsBit := 3, rwBit := 2, enBit := 1, blBit := 0 } }

/-- V13c and E9: ADDR_BYTE. -/
theorem test_addr_byte : addrByte board = 0x4E#8 ∧ addrByte otherBoard = 0x7E#8 := by decide

/-- V30, V30a, V30d: t1 and t0 of a pulse, and V30 with BACKLIGHT 0. -/
theorem test_pulse_bytes : tb board 4#4 true true = 0x4D#8 ∧ tb board 4#4 true false = 0x49#8 ∧
    tb board 0#4 false true = 0x0C#8 ∧ tb board 0#4 false false = 0x08#8 ∧ tb board 1#4 true true = 0x1D#8 ∧
    tb darkBoard 4#4 true true = 0x45#8 ∧ tb darkBoard 4#4 true false = 0x41#8 := by decide

/-- V31: LCD_CMD 0x28, high then low. -/
theorem test_cmd_bytes : tb board (highNibble 0x28#8) false true = 0x2C#8 ∧ tb board (highNibble 0x28#8) false false = 0x28#8 ∧
    tb board (lowNibble 0x28#8) false true = 0x8C#8 ∧ tb board (lowNibble 0x28#8) false false = 0x88#8 := by decide

/-- V1: LCD_DATA 0x41, high then low. -/
theorem test_data_bytes : tb board (highNibble 0x41#8) true true = 0x4D#8 ∧ tb board (highNibble 0x41#8) true false = 0x49#8 ∧
    tb board (lowNibble 0x41#8) true true = 0x1D#8 ∧ tb board (lowNibble 0x41#8) true false = 0x19#8 := by decide

/-! ## RESULT, STATUS, reset -/

/-- V26, V27 and the RESULT tables of 95_test_vectors for one pulse and for a send. -/
theorem test_result : packResult [] = 0x0000#16 ∧ packResult [false] = 0x0100#16 ∧ packResult [true] = 0x1101#16 ∧
    packResult [false, false, false] = 0x0300#16 ∧ packResult [true, true, true] = 0x1307#16 ∧
    packResult [false, true, false] = 0x1302#16 ∧ packResult [true, false, false] = 0x1301#16 ∧
    packResult [false, false, true] = 0x1304#16 ∧ packResult (List.replicate 6 false) = 0x0600#16 ∧
    packResult (List.replicate 6 true) = 0x163F#16 ∧
    packResult [false, false, false, false, false, true] = 0x1620#16 ∧
    packResult [true, false, false, true, false, false] = 0x1609#16 := by decide

/-- V56. -/
theorem test_reset : State.reset.latches = (true, true) ∧ State.reset.result = 0x0000#16 ∧ State.reset.status = 0x0000#16 ∧
    State.reset.ready = true := by decide

/-! ## Single steps -/

/-- A ready block on the board, the bus released, with words to take and levels to sample. -/
def ready (words : List Word) (levels : List Bit) : State :=
  { State.reset with config := board, stream := words, busIn := levels }

/-- A block at work, with what is left of its operation and the latches it stands at. -/
def atWork (left : List MicroAction) (scl sda : Bit) (levels : List Bit) : State :=
  { State.reset with config := board, seq := left, busy := true, sclOut := scl, sdaOut := sda, busIn := levels }

/-- V57: the word 0x8005 at reset is refused, STATUS 0x0002, no event, RESULT and latches as they were. -/
theorem test_refusal : ∃ t, step (ready [0x8005#16] []) = .next t ∧ t.status = 0x0002#16 ∧ t.ready = false ∧ t.trace = [] ∧
    t.result = 0x0000#16 ∧ t.latches = (true, true) := ⟨_, rfl, by decide⟩

/-- The accept of I2C_STOP (10_state R34): BUSY, no event. -/
theorem test_accept : ∃ t, step (ready [0x2000#16] []) = .next t ∧ t.status = 0x0001#16 ∧ t.trace = [] ∧ t.seq.length = 7 :=
  ⟨_, rfl, by decide⟩

/-- WAIT CLEAR ends after its one micro-step: the event, latches kept, RESULT 0x0000 (V28, V29). -/
theorem test_wait : ∃ t, step (atWork [.delay .clear] false true []) = .next t ∧ t.trace = [.delay .clear] ∧
    t.latches = (false, true) ∧ t.result = 0x0000#16 ∧ t.ready = true := ⟨_, rfl, by decide⟩

/-- The sample of I2C_RBIT takes the level the bus leaves where SDA is released, and 0 where it is driven low (10_state R35). -/
theorem test_sample : (∃ t, step (atWork [.sample, .setScl false] true true [true]) = .next t ∧ t.samples = [true]) ∧
    (∃ t, step (atWork [.sample, .setScl false] true false [true]) = .next t ∧ t.samples = [false]) :=
  ⟨⟨_, rfl, by decide⟩, ⟨_, rfl, by decide⟩⟩

/-- V58: a reset in an operation discards it and releases both latches. -/
theorem test_reset_step : ∃ t, step { atWork [.setScl true] false false [] with resetIn := [true] } = .next t ∧
    t.seq = [] ∧ t.latches = (true, true) ∧ t.status = 0x0000#16 := ⟨_, rfl, by decide⟩

/-- A word placed for the next step is the one it takes (V30: 0x6041 is LCD_PULSE 4, 1). -/
theorem test_placed : ∃ t, step (State.reset.withFetchWord 16 0x6041) = .next t ∧ t.busy = true ∧
    t.seq = pulseSeq State.reset.config 4#4 true ∧ t.stream = [] := ⟨_, rfl, rfl, rfl, rfl⟩

/-! ## Wire conditions and durations -/

/-- V17, V18, V24, V25: what the wire shows by entry state. -/
theorem test_wire : conditionsOf (true, false) stEvents = [.stop, .start] ∧ conditionsOf (false, true) spEvents = [.stop] ∧
    conditionsOf (true, true) (wbEvents false) = [.start] ∧ conditionsOf (true, false) (wbEvents true) = [.stop] ∧
    conditionsOf (false, false) (wbEvents true) = [] := by decide

/-- 70_reset_and_hazards R207 for I2C_START and WAIT CMD on the board: 2 T_BIT and T_CMD. -/
theorem test_durations : minTime board startSeq = 10 ∧ minTime board (waitSeq .cmd) = 50 := by decide

/-! ## The assembler -/

/-- V45, V46, V48, V49. -/
theorem test_assemble_host : assemble (.lcdCommand 0x0C) = some [0x700C#16, 0x8002#16] ∧
    assemble .lcdClear = some [0x7001#16, 0x8003#16] ∧ assemble (.lcdSetCursor 0 5) = some [0x7085#16, 0x8002#16] ∧
    assemble (.lcdSetCursor 1 3) = some [0x70C3#16, 0x8002#16] := by decide

/-- V50 to V54. -/
theorem test_assemble_corners : assemble (.lcdSetCursor 1 63) = some [0x70FF#16, 0x8002#16] ∧
    assemble (.lcdSetCursor 0 16) = some [0x7090#16, 0x8002#16] ∧ assemble (.lcdSetCursor 2 0) = none ∧
    assemble (.lcdPrint []) = some [] ∧ assemble (.lcdPrint [0x48, 0x69]) = some [0x7148#16, 0x7169#16] := by decide

/-- The two lines of P3 are its four words. -/
theorem test_assemble_program : assembleAll [.lcdSetCursor 1 3, .lcdPrint [0x48, 0x69]] =
    some [0x70C3#16, 0x8002#16, 0x7148#16, 0x7169#16] := by decide

/-- The forms of 30_encoding R72: hexadecimal, decimal, binary, a comment, an operand pair. -/
theorem test_text_numbers : assembleText "I2C_WBYTE 0x4E ; address".toList = some [0x504E#16] ∧
    assembleText "I2C_WBYTE 78".toList = some [0x504E#16] ∧
    assembleText "I2C_WBYTE 0b0100_1110".toList = some [0x504E#16] ∧
    assembleText "LCD_PULSE 4, 1".toList = some [0x6041#16] := by decide

/-- A character literal, a string, a delay class; an operand out of range is an error (30_encoding R72; V54; E5). -/
theorem test_text_forms : assembleText "LCD_DATA 'A'".toList = some [0x7141#16] ∧
    assembleText "LCD_PRINT \"Hi\"".toList = some [0x7148#16, 0x7169#16] ∧
    assembleText "WAIT CLEAR".toList = some [0x8003#16] ∧ assembleText "I2C_WBYTE 256".toList = none := by decide

/-! ## The duties of the host (70_reset_and_hazards R196 to R199) -/

/-- The raw form of P6 keeps its byte operations inside; a byte operation before any I2C_START does not. -/
theorem test_inside : bitOpsInside false [.i2cStart, .i2cWbyte 0x4E#8, .wait .settle, .i2cStop] = true ∧
    bitOpsInside false [.i2cWbyte 0x4E#8] = false ∧ bitOpsInside false [.i2cStart, .i2cStop, .i2cRbit] = false := by decide

/-- Eight write bits need one read bit after them. -/
theorem test_ack : ackAfterEightBits 0 (List.replicate 8 (.i2cWbit true) ++ [.i2cRbit]) = true ∧
    ackAfterEightBits 0 (List.replicate 8 (.i2cWbit true) ++ [.i2cStop]) = false := by decide

/-- An extra pulse breaks the pairing, and a bare clear breaks the wait. -/
theorem test_pairs : pulsesPaired false [.lcdPulse 3#4 false, .lcdPulse 3#4 false] = true ∧
    pulsesPaired false [.lcdPulse 3#4 false] = false ∧ clearWaited board none 0 [.lcdCmd 1#8, .wait .clear, .lcdCmd 1#8] = true ∧
    clearWaited board none 0 [.lcdCmd 1#8, .lcdData 0x41#8] = false := by decide

/-- Command 0x01 sent as two pulses, the form R197 allows, owes its wait too; the same nibbles with RS 1 are a character. -/
theorem test_clear_by_pulses :
    clearWaited board none 0 [.lcdPulse 0#4 false, .lcdPulse 1#4 false, .lcdData 0x41#8] = false ∧
    clearWaited board none 0 [.lcdPulse 0#4 false, .lcdPulse 1#4 false, .wait .clear, .lcdData 0x41#8] = true ∧
    clearWaited board none 0 [.lcdPulse 0#4 true, .lcdPulse 1#4 true, .lcdData 0x41#8] = true := by decide

/-- Home owes the wait of the clear class too (R203), and so does a bare clear after an extra pulse, before LCD_INIT or after it
(R197, R199). -/
theorem test_clear_class :
    clearWaited board none 0 [.lcdCmd 2#8, .lcdData 0x41#8] = false ∧
    clearWaited board none 0 [.lcdCmd 3#8, .wait .clear, .lcdData 0x41#8] = true ∧
    clearWaited board none 0 ([.lcdPulse 3#4 false] ++ lcdInitOps ++ [.lcdCmd 1#8, .lcdData 0x41#8]) = false ∧
    clearWaited board none 0 [.lcdPulse 3#4 false, .lcdCmd 1#8, .lcdData 0x41#8] = false := by decide

/-- One enable pulse in raw words (P6). -/
def rawPulse (n : Nibble) (rs : Bit) : List Instr :=
  [.i2cStart, .i2cWbyte (addrByte board), .i2cWbyte (tb board n rs true), .wait .settle, .i2cWbyte (tb board n rs false),
   .wait .settle, .i2cStop]

/-- Read off the wires, command 0x01 owes its wait in raw words too (P6 with R199). -/
theorem test_clear_on_wire :
    clearWaitedOnWire board (Device.idle 0x27#7 BitMap.default) 0
      (rawPulse 0#4 false ++ rawPulse 1#4 false ++ rawPulse 4#4 true) = false ∧
    clearWaitedOnWire board (Device.idle 0x27#7 BitMap.default) 0
      (rawPulse 0#4 false ++ rawPulse 1#4 false ++ [.wait .clear] ++ rawPulse 4#4 true) = true := by decide +kernel

/-- A device whose controller's interface is not known yet. -/
def unknownDevice : Device := Device.beforeBringUp 0x27#7 BitMap.default

/-- Read off the wires, LCD_INIT recovers the nibble phase, and a bare clear or home after it is seen (R197, R199, R203). -/
theorem test_class_on_wire :
    clearWaitedOnWire board (Device.idle 0x27#7 BitMap.default) 0
      ([.lcdPulse 3#4 false] ++ lcdInitOps ++ [.lcdCmd 1#8, .lcdData 0x41#8]) = false ∧
    clearWaitedOnWire board (Device.idle 0x27#7 BitMap.default) 0
      ([.lcdPulse 3#4 false] ++ lcdInitOps ++ [.lcdCmd 1#8, .wait .clear, .lcdData 0x41#8]) = true ∧
    clearWaitedOnWire board (Device.idle 0x27#7 BitMap.default) 0 [.lcdCmd 2#8, .lcdData 0x41#8] = false := by decide +kernel

/-- A controller of unknown width is strobed by a bring-up alone. -/
theorem test_unknown_width : clearWaitedOnWire board unknownDevice 0 [.lcdCmd 0x80#8] = false ∧
    clearWaitedOnWire board unknownDevice 0 (lcdInitOps ++ [.lcdCmd 0x80#8]) = true := by decide +kernel

/-! ## The reference device (60_exceptions R184) -/

/-- In a ninth clock in which it pulls SDA low itself, the block's own SDA edges are no START and no STOP on the wire (R15, R24). -/
theorem test_no_stop_in_ack :
    let d := { Device.idle 0x27#7 BitMap.default with phase := .selected, clocks := 9, sda := false }
    (d.see (.setSda true)).phase = .selected ∧ (d.see (.setSda true)).clocks = 9 ∧
    ((d.see (.setSda true)).see (.setSda false)).phase = .selected ∧
    ({ d with clocks := 0 }.see (.setSda true)).phase = .idle := by decide

/-- It pulls low in the ninth clock of its own address byte and not of another's. -/
theorem test_device : { Device.idle 0x27#7 BitMap.default with phase := .address, clocks := 9, shift := 0x4E#8 }.slaveSda = false ∧
    { Device.idle 0x27#7 BitMap.default with phase := .address, clocks := 9, shift := 0x4F#8 }.slaveSda = true := by decide

/-! ## Witnesses: for every statement with hypotheses, a state and operands that meet them -/

/-- A ready block with a reset scheduled right after the next `n` steps. -/
def resetAfter (n : Nat) (words : List Word) (levels : List Bit) : State :=
  { ready words levels with resetIn := List.replicate n false ++ [true] }

/-- A refused block. -/
def refusedBlock : State := { ready [0x2000#16] [] with refusal := some .badOpcode }

theorem witness_encode : decode 0x8004#16 = .ok (.wait .poweron) := by decide

theorem witness_rows : (∃ r ∈ opcodeMap, r.selects 0x8004#16 = true) ∧ ¬ (∃ r ∈ opcodeMap, r.selects 0x8005#16 = true) ∧
    decode 0x60F1#16 = .ok (.lcdPulse 15#4 true) := by decide

theorem witness_step_runs : (ready [0x1000#16] []).resetNow = false ∧ (ready [0x1000#16] []).ready = true ∧
    (ready [0x1000#16] []).stream = [0x1000#16] ∧ decode 0x1000#16 = .ok .i2cStart := by decide

theorem witness_placed : decodeTableWord 16 0x8004 = some (.wait .poweron) ∧ (ready [] []).ready = true ∧
    (ready [] []).resetNow = false ∧ (ready [] []).seq = [] := by decide

/-- AcceptStep, its legal clause and its illegal one. -/
theorem witness_accept : (ready [0x7141#16, 0x8005#16] []).resetNow = false ∧ (ready [0x7141#16] []).busy = false ∧
    (ready [0x7141#16] []).refused = false ∧ decode 0x7141#16 = .ok (.lcdData 0x41#8) ∧
    decode 0x8005#16 = .error .badDelayClass := by decide

/-- WordHeldUntilReady, one state for each clause. -/
theorem witness_held : ((ready [0x1000#16] []).ready = true ∧ (ready [0x1000#16] []).resetNow = false) ∧
    ((atWork [.setScl false] true false []).ready = false ∧ ∃ t, step (atWork [.setScl false] true false []) = .next t) ∧
    ((atWork [.setScl false] true false []).refused = false ∧ (atWork [.setScl false] true false []).resetNow = false) :=
  ⟨by decide, ⟨by decide, _, rfl⟩, by decide⟩

/-- MicroStepPerformsHead, a last micro-action and one that is not. -/
theorem witness_micro : (atWork [.sample] true true [true]).resetNow = false ∧ (atWork [.sample] true true [true]).busy = true ∧
    (atWork [.sample] true true [true]).seq = [.sample] ∧
    (atWork [.sample, .setScl false] true true [true]).seq = .sample :: [.setScl false] := by decide

/-- The statements of one operation each: a ready block, no reset within its micro-steps, one right after them. -/
theorem witness_quiet : (resetAfter 6 [] []).ready = true ∧ Quiet 6 (resetAfter 6 [] []) ∧ Quiet 7 (resetAfter 7 [] []) ∧
    Quiet 5 (resetAfter 5 [] []) ∧ Quiet 1 (resetAfter 1 [] []) ∧ Quiet 45 (resetAfter 45 [] []) := by decide

/-- StartWireEffect and WriteBitWireEffect: the entry state of every clause (V14, V17, V24, V25, V22). -/
theorem witness_entries : { ready [] [] with sdaOut := false }.latches = (true, false) ∧ (ready [] []).latches = (true, true) ∧
    { ready [] [] with sdaOut := false }.ready = true ∧ { ready [] [] with sclOut := false }.latches = (false, true) ∧
    Quiet 6 { ready [] [] with sdaOut := false } := by decide

/-- WriteByteNineClocks: entered with SCL low. -/
theorem witness_nine : { ready [] [] with sclOut := false }.ready = true ∧ Quiet 45 { ready [] [] with sclOut := false } ∧
    { ready [] [] with sclOut := false }.sclOut = false := by decide

theorem witness_pulse : (resetAfter 150 [] [false, true, false]).ready = true ∧
    (resetAfter 150 [] [false, true, false]).comingLevels 3 = [false, true, false] ∧
    Quiet 150 (ready [] [false, true, false]) := by decide

theorem witness_send : (ready [] [true, false, false, true, false, false]).ready = true ∧
    Quiet 300 (ready [] [true, false, false, true, false, false]) ∧
    (ready [] [true, false, false, true, false, false]).comingLevels 6 = [true, false, false, true, false, false] ∧
    (ready [] [true, false, false, true, false, false]).latches = (true, true) := by decide

theorem witness_legal_map : board.bitMap.Legal ∧ otherBoard.bitMap.Legal := by decide

theorem witness_clear : board.ClearDominates := by decide

/-- EveryOperationCompletes and FramingIgnoresBusAndHistory: two ready blocks with other histories, buses and delays. -/
theorem witness_completes : (ready [] [true]).ready = true ∧ Quiet (microCount (.lcdData 0x41#8)) (ready [] [true]) ∧
    { ready [] [] with sclOut := false, config := { board with tBit := 7 }, result := 0x1101#16 }.ready = true ∧
    Quiet (microCount (.lcdData 0x41#8))
      { ready [] [] with sclOut := false, config := { board with tBit := 7 }, result := 0x1101#16 } ∧
    0 < microCount (.wait .bit) ∧ 299 < microCount (.lcdData 0x41#8) := by decide

theorem witness_raw : (resetAfter 157 [] []).ready = true ∧ Quiet 157 (resetAfter 157 [] []) := by decide

theorem witness_result_fields : [true, true, true, true, true, true].length ≤ 6 ∧ ([] : List Bit).length ≤ 6 := by decide

/-- A step that completes an operation, one that does not and one that only accepts: ResultWrittenAtCompletion,
ResultIsAdvisory, OnlyLatchWritesMoveLatches, TraceGrowsWithMicroActions, ConfigurationIsConstant, OneEventPerStep. -/
theorem witness_steps :
    (∃ t, step (atWork [.setScl false] true false []) = .next t ∧ t.busy = false ∧ t.sclOut = false ∧
      t.trace = [.setScl false]) ∧
    (∃ t, step (atWork [.setSda true, .delay .bit] true false []) = .next t ∧ t.busy = true ∧ t.sdaOut = true) ∧
    (∃ t, step (ready [0x1000#16] []) = .next t ∧ t.stream = []) ∧
    (∃ t, step (ready [0x9000#16] []) = .next t ∧ t.refusal = some .badOpcode) ∧
    (atWork [.setScl false] true false []).resetNow = false ∧ (ready [0x9000#16] []).resetNow = false :=
  ⟨⟨_, rfl, by decide⟩, ⟨_, rfl, by decide⟩, ⟨_, rfl, by decide⟩, ⟨_, rfl, by decide⟩, by decide, by decide⟩

theorem witness_exec_held : (atWork [.setScl false] true false []).ready = false ∧ refusedBlock.ready = false := by decide

theorem witness_accept_frame : ∃ t, exec (.wait .bit) (ready [] []) = .next t ∧ t.seq = [.delay .bit] := ⟨_, rfl, rfl⟩

/-- IllegalWordRefused, one state for each clause. -/
theorem witness_illegal : ((ready [0x9000#16] []).resetNow = false ∧ (ready [0x9000#16] []).ready = true ∧
      decode 0x9000#16 = .error .badOpcode) ∧
    ({ refusedBlock with resetIn := [false, true] }.refused = true ∧
      ∃ t, step { refusedBlock with resetIn := [false, true] } = .next t) ∧
    (∃ t, step { refusedBlock with resetIn := [true] } = .next t) := ⟨by decide, ⟨by decide, _, rfl⟩, _, rfl⟩

/-- RefusedBlockWaitsForReset: a reset two steps ahead, one at once, and none. -/
theorem witness_refused : { refusedBlock with resetIn := [false, false, true] }.busy = false ∧
    { refusedBlock with resetIn := [false, false, true] }.refused = true ∧
    { refusedBlock with resetIn := [false, false, true] }.resetIn = List.replicate 2 false ++ true :: [] ∧
    { refusedBlock with resetIn := [true, false] }.resetIn = List.replicate 0 false ++ true :: [false] ∧
    refusedBlock.busy = false ∧ refusedBlock.refusal = some .badOpcode ∧ (∀ b ∈ refusedBlock.resetIn, b = false) := by decide

/-- ResetState and ResetOverridesAndDiscards: a reset that cuts an operation. -/
theorem witness_reset : { atWork [.setScl true] false false [] with resetIn := [true] }.resetNow = true ∧
    ∃ t, step { atWork [.setScl true] false false [] with resetIn := [true] } = .next t := ⟨by decide, _, rfl⟩

/-- A block one micro-step into I2C_START meets the invariant and steps on (StepKeepsInvariant). -/
theorem witness_inv : Inv { atWork startSeq.tail true true [] with trace := [.setSda true] } ∧
    ∃ t, step { atWork startSeq.tail true true [] with trace := [.setSda true] } = .next t :=
  ⟨{ busy_iff_work := by decide
     busy_not_refused := by decide
     in_progress := fun _ => ⟨.i2cStart, [.setSda true], [], by decide, by decide, by decide⟩
     samples_at_most_six := by decide
     result_packed := ⟨[], by decide, by decide⟩
     idle_result := by decide
     latches_follow_trace := by decide }, _, rfl⟩

/-- A refused block meets the invariant too (NoFaultAndOneRefusal), and with no reset to come it stops. -/
theorem witness_inv_refused : Inv refusedBlock ∧ step refusedBlock = .refused (.illegalWord .badOpcode) :=
  ⟨{ busy_iff_work := by decide
     busy_not_refused := by decide
     in_progress := fun h => by cases h
     samples_at_most_six := by decide
     result_packed := ⟨[], by decide, by decide⟩
     idle_result := by decide
     latches_follow_trace := by decide }, rfl⟩

/-- SetCursorWords, CommandClearPrintWords and AssemblerNeverTruncates: their clauses at the ends of their ranges. -/
theorem witness_lines : assemble (.lcdSetCursor 0 63) = some [0x70BF#16, 0x8002#16] ∧
    assemble (.lcdSetCursor 1 0) = some [0x70C0#16, 0x8002#16] ∧ assemble (.lcdSetCursor 1 64) = none ∧
    (∀ ch ∈ [0, 255], ch < 256) ∧ (AsmLine.lcdCommand 255).wellFormed = true ∧
    (AsmLine.lcdCommand 256).wellFormed = false ∧ (∃ ch ∈ [0x41, 256], 256 ≤ ch) ∧
    assemble (.lcdPulse 15 1) = some [0x60F1#16] ∧ assemble (.i2cWbyte 255) = some [0x50FF#16] := by decide

theorem witness_inside : bitOpsInside false ([.i2cStart, .i2cWbyte 0x4E#8, .wait .settle] ++ .i2cRbit :: [.i2cStop]) = true := by
  decide

theorem witness_duties : ∀ l ∈ [AsmLine.lcdInit, .lcdSetCursor 1 63, .lcdPrint [0x48, 0xFF], .lcdClear, .lcdCommand 0],
    l.wellFormed = true ∧ (match l with
      | .lcdCommand x => x ≠ 1 ∧ x ≠ 2 ∧ x ≠ 3
      | .lcdClear => True
      | .lcdInit => True
      | .lcdSetCursor _ _ => True
      | .lcdPrint _ => True
      | _ => False) := by
  simp [AsmLine.wellFormed, Config.displayRows]

/-- A clear or home with no wait before the next LCD operation. -/
theorem witness_bare_clear : 0 < board.tClear ∧ clearClass 0x03#8 = true ∧ clearClass 0x04#8 = false := by decide

theorem witness_init_first : [AsmLine.lcdInit, .lcdSetCursor 1 63].head? = some .lcdInit ∧
    startsWithInit [.lcdData 0x41#8] = false := by decide

/-- The statements about the reference device: a device at the block's address on its bit map, and an acknowledging bus. -/
theorem witness_device : (ready [] (List.replicate 6 false)).ready = true ∧ Quiet 300 (ready [] (List.replicate 6 false)) ∧
    (ready [] (List.replicate 6 false)).latches = (true, true) ∧ board.bitMap.Legal ∧
    (Device.idle 0x27#7 BitMap.default).address = (ready [] []).config.devAddr7 ∧
    (Device.idle 0x27#7 BitMap.default).bitMap = (ready [] []).config.bitMap ∧
    (Device.idle 0x27#7 BitMap.default).scl = true ∧ (Device.idle 0x27#7 BitMap.default).sda = true ∧
    (Device.idle 0x27#7 BitMap.default).phase = .idle ∧ (Device.idle 0x27#7 BitMap.default).OnByteBoundary ∧
    unknownDevice.interface = .unknown ∧ unknownDevice.phase = .idle ∧ unknownDevice.address = board.devAddr7 ∧
    unknownDevice.bitMap = board.bitMap ∧ unknownDevice.scl = true ∧ unknownDevice.sda = true ∧
    (ready [] (List.replicate 6 false)).comingLevels 6 = List.replicate 6 false ∧
    (ready [] (List.replicate 6 false)).comingLevels 3 = List.replicate 3 false := by decide

end Sys2Proof.Tests.Slice0
end

section
/-! PROOFS. What every operation does when a ready block runs it, what the two wires show of each micro-sequence, and the
statements about wire conditions that rest on 00_scope R15. -/

namespace Sys2Proof.Machine

open Sys2Proof.Safety

/-! What an expansion does, for each operation (30_encoding R77). -/

theorem length_expand (c : Config) (i : Instr) : (expand c i).length = microCount i := by
  cases i with
  | lcdPulse n rs => exact length_pulseSeq c n rs
  | lcdCmd d | lcdData d => simp [expand, sendSeq, microCount]
  | _ => rfl

theorem samplesIn_expand (c : Config) (i : Instr) : samplesIn (expand c i) = sampleCount i := by
  cases i with
  | lcdPulse n rs => exact samplesIn_pulseSeq c n rs
  | lcdCmd d | lcdData d => simp [expand, sendSeq, sampleCount, samplesIn_append]
  | _ => rfl

theorem released_expand (d : Bit) (c : Config) (i : Instr) : releasedAtSamples d (expand c i) = true := by
  cases i with
  | lcdPulse n rs => exact released_pulseSeq d c n rs
  | lcdCmd b | lcdData b => simp [expand, sendSeq, releasedAtSamples_append d false]
  | _ => rfl

theorem exitOf_expand (cd : Bit × Bit) (c : Config) (i : Instr) : exitOf cd (expand c i) = exitLatches cd i := by
  cases i with
  | lcdPulse n rs => exact exitOf_pulseSeq cd c n rs
  | lcdCmd d | lcdData d => simp [expand, sendSeq, exitLatches, exitOf_append]
  | _ => rfl

/-- A ready block accepts any operation and runs it to its end: its micro-steps, its samples, its events, its exit latches
(10_state R34, R35). -/
theorem exec_run {i : Instr} {s : State} (hr : s.ready = true) (hq : Quiet (microCount i) s) :
    ∃ t u, exec i s = .next t ∧ Accepted s t ∧ run (microCount i) t = .next u ∧
      Completed (microCount i) (sampleCount i) s u ∧
      u.trace = s.trace ++ eventsOf (expand s.config i) (s.comingLevels (sampleCount i)) ∧
      u.latches = exitLatches s.latches i := by
  obtain ⟨u, hacc, hload, hrun, hdone, htrace, hexit⟩ :=
    accept_run hr (expand_ne_nil s.config i) (released_expand s.sdaOut s.config i) (by rwa [length_expand])
  rw [length_expand] at hrun
  rw [length_expand, samplesIn_expand] at hdone
  rw [samplesIn_expand] at htrace
  rw [exitOf_expand] at hexit
  exact ⟨s.load (expand s.config i), u, by rw [exec_eq_accept, hacc], hload, hrun, hdone, htrace, hexit⟩

/-! The wires under two sequences one after the other. -/

theorem conditionsOf_eventsOf_append (cd : Bit × Bit) (a b : List MicroAction) (levels : List Bit) :
    conditionsOf cd (eventsOf (a ++ b) levels) =
      conditionsOf cd (eventsOf a levels) ++ conditionsOf (exitOf cd a) (eventsOf b (levels.drop (samplesIn a))) := by
  rw [eventsOf_append, conditionsOf_append, latchesAfter_eventsOf]

theorem clockRises_eventsOf_append (cd : Bit × Bit) (a b : List MicroAction) (levels : List Bit) :
    clockRises cd (eventsOf (a ++ b) levels) =
      clockRises cd (eventsOf a levels) + clockRises (exitOf cd a) (eventsOf b (levels.drop (samplesIn a))) := by
  rw [eventsOf_append, clockRises_append, latchesAfter_eventsOf]

/-! The wires under each bus form, whatever is sampled: a START, a STOP, a bit, a byte. -/

@[simp] theorem exitOf_startSeq (cd : Bit × Bit) : exitOf cd startSeq = (false, false) := rfl
@[simp] theorem exitOf_stopSeq (cd : Bit × Bit) : exitOf cd stopSeq = (true, true) := rfl
@[simp] theorem exitOf_wbitSeq (cd : Bit × Bit) (b : Bit) : exitOf cd (wbitSeq b) = (false, b) := rfl

@[simp] theorem conditionsOf_delay_cons (cd : Bit × Bit) (k : DelayClass) (ms : List MicroAction) (levels : List Bit) :
    conditionsOf cd (eventsOf (.delay k :: ms) levels) = conditionsOf cd (eventsOf ms levels) := rfl

@[simp] theorem clockRises_delay_cons (cd : Bit × Bit) (k : DelayClass) (ms : List MicroAction) (levels : List Bit) :
    clockRises cd (eventsOf (.delay k :: ms) levels) = clockRises cd (eventsOf ms levels) := by
  simp [eventsOf, clockRises, Event.latchesAfter]

/-- 40_bit_level R101: raising SDA first is a STOP where SCL was already high. -/
theorem conditionsOf_startSeq (cd : Bit × Bit) (levels : List Bit) :
    conditionsOf cd (eventsOf startSeq levels) = if cd = (true, false) then [.stop, .start] else [.start] := by
  rcases cd with ⟨_ | _, _ | _⟩ <;> rfl

theorem clockRises_startSeq (cd : Bit × Bit) (levels : List Bit) :
    clockRises cd (eventsOf startSeq levels) = if cd.1 then 0 else 1 := by
  rcases cd with ⟨_ | _, _⟩ <;> rfl

/-- 40_bit_level R103: SCL goes low before SDA moves, so the entry latches make no condition. -/
@[simp] theorem conditionsOf_stopSeq (cd : Bit × Bit) (levels : List Bit) :
    conditionsOf cd (eventsOf stopSeq levels) = [.stop] := by
  rcases cd with ⟨_ | _, _ | _⟩ <;> rfl

@[simp] theorem clockRises_stopSeq (cd : Bit × Bit) (levels : List Bit) : clockRises cd (eventsOf stopSeq levels) = 1 := by
  rcases cd with ⟨_ | _, _⟩ <;> rfl

/-- 40_bit_level R105: SDA moves first, and only with SCL high is that a condition. -/
theorem conditionsOf_wbitSeq (cd : Bit × Bit) (b : Bit) (levels : List Bit) :
    conditionsOf cd (eventsOf (wbitSeq b) levels) =
      if cd.1 = true ∧ cd.2 = true ∧ b = false then [.start]
      else if cd.1 = true ∧ cd.2 = false ∧ b = true then [.stop] else [] := by
  rcases cd with ⟨_ | _, _ | _⟩ <;> cases b <;> rfl

theorem clockRises_wbitSeq (cd : Bit × Bit) (b : Bit) (levels : List Bit) :
    clockRises cd (eventsOf (wbitSeq b) levels) = if cd.1 then 0 else 1 := by
  rcases cd with ⟨_ | _, _⟩ <;> rfl

theorem conditionsOf_rbitSeq_low (d : Bit) (levels : List Bit) :
    conditionsOf (false, d) (eventsOf rbitSeq levels) = [] := rfl

theorem clockRises_rbitSeq_low (d : Bit) (levels : List Bit) :
    clockRises (false, d) (eventsOf rbitSeq levels) = 1 := rfl

/-- Any number of write bits and a read bit, entered with SCL low, make no condition: each bit leaves SCL low for the next. -/
theorem conditionsOf_bits_low (bits : List Bit) (d : Bit) (levels : List Bit) :
    conditionsOf (false, d) (eventsOf (bits.flatMap wbitSeq ++ rbitSeq) levels) = [] := by
  induction bits generalizing d levels with
  | nil => exact conditionsOf_rbitSeq_low d levels
  | cons b bits ih =>
    rw [List.flatMap_cons, List.append_assoc, conditionsOf_eventsOf_append, exitOf_wbitSeq, ih, conditionsOf_wbitSeq]
    simp

/-- Entered with SCL low, every bit makes one rising edge. -/
theorem clockRises_bits_low (bits : List Bit) (d : Bit) (levels : List Bit) :
    clockRises (false, d) (eventsOf (bits.flatMap wbitSeq ++ rbitSeq) levels) = bits.length + 1 := by
  induction bits generalizing d levels with
  | nil => exact clockRises_rbitSeq_low d levels
  | cons b bits ih =>
    rw [List.flatMap_cons, List.append_assoc, clockRises_eventsOf_append, exitOf_wbitSeq, ih, clockRises_wbitSeq,
      List.length_cons]
    simp [Nat.add_comm]

@[simp] theorem conditionsOf_wbyteSeq_low (b : Byte) (d : Bit) (levels : List Bit) :
    conditionsOf (false, d) (eventsOf (wbyteSeq b) levels) = [] := conditionsOf_bits_low (bitsMsbFirst b) d levels

@[simp] theorem clockRises_wbyteSeq_low (b : Byte) (d : Bit) (levels : List Bit) :
    clockRises (false, d) (eventsOf (wbyteSeq b) levels) = 9 := clockRises_bits_low (bitsMsbFirst b) d levels

/-! The wires under the LCD transport from the released bus: one START and one STOP for each enable pulse, and between them the
27 clocks of its three bytes and the rise of the STOP. -/

theorem conditionsOf_pulseSeq (c : Config) (n : Nibble) (rs : Bit) (levels : List Bit) :
    conditionsOf (true, true) (eventsOf (pulseSeq c n rs) levels) = [.start, .stop] := by
  simp [pulseSeq, conditionsOf_eventsOf_append, conditionsOf_startSeq]

theorem clockRises_pulseSeq (c : Config) (n : Nibble) (rs : Bit) (levels : List Bit) :
    clockRises (true, true) (eventsOf (pulseSeq c n rs) levels) = 28 := by
  simp [pulseSeq, clockRises_eventsOf_append, clockRises_startSeq]

theorem conditionsOf_sendSeq (c : Config) (d : Byte) (rs : Bit) (levels : List Bit) :
    conditionsOf (true, true) (eventsOf (sendSeq c d rs) levels) = [.start, .stop, .start, .stop] := by
  rw [sendSeq, conditionsOf_eventsOf_append, exitOf_pulseSeq, conditionsOf_pulseSeq, conditionsOf_pulseSeq]
  rfl

theorem clockRises_sendSeq (c : Config) (d : Byte) (rs : Bit) (levels : List Bit) :
    clockRises (true, true) (eventsOf (sendSeq c d rs) levels) = 56 := by
  rw [sendSeq, clockRises_eventsOf_append, exitOf_pulseSeq, clockRises_pulseSeq, clockRises_pulseSeq]

/-! Streams of operations. -/

theorem samplesIn_flatMap_expand (c : Config) (is : List Instr) :
    samplesIn (is.flatMap (expand c)) = (is.map sampleCount).sum := by
  induction is with
  | nil => rfl
  | cons i is ih => rw [List.flatMap_cons, samplesIn_append, samplesIn_expand, ih, List.map_cons, List.sum_cons]

/-- An operation other than I2C_STOP that leaves a released bus released, so an LCD operation or a WAIT, makes one START and one
STOP for each of its enable pulses. -/
theorem conditionsOf_expand_released (c : Config) (i : Instr) (levels : List Bit)
    (hexit : exitLatches (true, true) i = (true, true)) (hstop : i ≠ .i2cStop) :
    conditionsOf (true, true) (eventsOf (expand c i) levels) =
      (List.replicate (pulsesOf i).length [WireCondition.start, WireCondition.stop]).flatten := by
  cases i with
  | i2cStop => exact absurd rfl hstop
  | i2cStart | i2cWbit b | i2cRbit | i2cWbyte d => simp [exitLatches] at hexit
  | lcdPulse n rs => exact conditionsOf_pulseSeq c n rs levels
  | lcdCmd d | lcdData d => exact conditionsOf_sendSeq c d _ levels
  | wait k => rfl

/-- The same of a stream of such operations, each of which hands the released bus to the next. -/
theorem conditionsOf_flatMap_expand_released (c : Config) (is : List Instr) (levels : List Bit)
    (h : ∀ i ∈ is, exitLatches (true, true) i = (true, true) ∧ i ≠ .i2cStop) :
    conditionsOf (true, true) (eventsOf (is.flatMap (expand c)) levels) =
      (List.replicate (is.flatMap pulsesOf).length [WireCondition.start, WireCondition.stop]).flatten := by
  induction is generalizing levels with
  | nil => rfl
  | cons i is ih =>
    obtain ⟨hi, his⟩ := List.forall_mem_cons.1 h
    rw [List.flatMap_cons, conditionsOf_eventsOf_append, exitOf_expand, hi.1, ih _ his,
      conditionsOf_expand_released c i levels hi.1 hi.2, List.flatMap_cons, List.length_append, List.replicate_add,
      List.flatten_append]

/-! Bit operations kept inside transactions (70_reset_and_hazards R196). -/

/-- What the duty says of a stream after its first operation: some mark `inside'` holds of the rest, and where a set mark promised
SCL low before the operation, it does so after it. -/
theorem bitOpsInside_cons {inside : Bool} {i : Instr} {is : List Instr} (h : bitOpsInside inside (i :: is) = true) :
    ∃ inside', bitOpsInside inside' is = true ∧
      ∀ cd : Bit × Bit, (inside = true → cd.1 = false) → inside' = true → (exitLatches cd i).1 = false := by
  cases i with
  | i2cStart => exact ⟨true, h, fun _ _ _ => rfl⟩
  | i2cWbit b | i2cRbit | i2cWbyte d =>
    exact ⟨inside, (Bool.and_eq_true_iff.1 h).2, fun _ _ _ => rfl⟩
  | i2cStop | lcdPulse n rs | lcdCmd d | lcdData d => exact ⟨false, h, fun _ _ h' => Bool.noConfusion h'⟩
  | wait k => exact ⟨inside, h, fun _ hcd => hcd⟩

/-- A stream that keeps the duty keeps SCL low at every operation it holds to be inside a transaction. -/
theorem bitOpsInside_low {inside : Bool} {before after : List Instr} {cd : Bit × Bit}
    (h : bitOpsInside inside (before ++ after) = true) (hcd : inside = true → cd.1 = false) :
    ∃ inside', bitOpsInside inside' after = true ∧ (inside' = true → (before.foldl exitLatches cd).1 = false) := by
  induction before generalizing inside cd with
  | nil => exact ⟨inside, h, hcd⟩
  | cons i before ih =>
    obtain ⟨inside', hrest, hlow⟩ := bitOpsInside_cons h
    exact ih hrest (hlow cd hcd)

/-- A bit or byte operation entered with SCL low makes no wire condition. -/
theorem conditionsOf_bitOp_low {c : Config} {i : Instr} {cd : Bit × Bit} (levels : List Bit)
    (hi : (∃ b, i = .i2cWbit b) ∨ i = .i2cRbit ∨ ∃ d, i = .i2cWbyte d) (hcd : cd.1 = false) :
    conditionsOf cd (eventsOf (expand c i) levels) = [] := by
  obtain ⟨scl, sda⟩ := cd
  subst hcd
  rcases hi with ⟨b, rfl⟩ | rfl | ⟨d, rfl⟩
  · exact conditionsOf_wbitSeq (false, sda) b levels
  · exact conditionsOf_rbitSeq_low sda levels
  · exact conditionsOf_wbyteSeq_low d sda levels

/-! The statements. -/

/-- Settles O12: the wire conditions of the start sequence, in the run of every operation. -/
theorem startWireEffect : Obligations.StartWireEffect := by
  intro s hr hq
  obtain ⟨t, u, hexec, -, hrun, -, htrace, hexit⟩ := exec_run (i := .i2cStart) hr hq
  exact ⟨t, u, _, hexec, hrun, htrace, hexit, conditionsOf_startSeq s.latches _⟩

/-- Settles O14: the wire conditions and the rise of the stop sequence, in the run of every operation. -/
theorem stopWireEffect : Obligations.StopWireEffect := by
  intro s hr hq
  obtain ⟨t, u, hexec, -, hrun, -, htrace, hexit⟩ := exec_run (i := .i2cStop) hr hq
  exact ⟨t, u, _, hexec, hrun, htrace, hexit, conditionsOf_stopSeq s.latches _, clockRises_stopSeq s.latches _⟩

/-- Settles O16: the wire conditions of a write bit from its entry latches. -/
theorem writeBitWireEffect : Obligations.WriteBitWireEffect := by
  intro b s hr hq
  obtain ⟨t, u, hexec, -, hrun, -, htrace, -⟩ := exec_run (i := .i2cWbit b) hr hq
  exact ⟨t, u, _, hexec, hrun, htrace, conditionsOf_wbitSeq s.latches b _⟩

/-- Settles O20, by induction on the bits of the byte, each of which leaves SCL low for the next. -/
theorem writeByteNineClocks : Obligations.WriteByteNineClocks := by
  intro d s hr hq hlow
  obtain ⟨t, u, hexec, -, hrun, -, htrace, -⟩ := exec_run (i := .i2cWbyte d) hr hq
  have hentry : s.latches = (false, s.sdaOut) := by rw [State.latches, hlow]
  exact ⟨t, u, _, hexec, hrun, htrace, by rw [hentry]; exact clockRises_wbyteSeq_low d _ _,
    by rw [hentry]; exact conditionsOf_wbyteSeq_low d _ _⟩

/-- Settles O27: a send is two pulses, the first of which hands the released bus to the second. -/
theorem sendMakesTwoTransactions : Obligations.SendMakesTwoTransactions := by
  intro d i s hi hr hq hentry
  obtain ⟨rs, hsend⟩ : ∃ rs, expand s.config i = sendSeq s.config d rs := by
    rcases hi with rfl | rfl
    · exact ⟨false, rfl⟩
    · exact ⟨true, rfl⟩
  have hcount : microCount i = 300 := by rcases hi with rfl | rfl <;> rfl
  rw [← hcount] at hq ⊢
  obtain ⟨t, u, hexec, -, hrun, -, htrace, -⟩ := exec_run hr hq
  refine ⟨t, u, _, hexec, hrun, htrace, ?_, ?_⟩
  · rw [hentry, hsend, conditionsOf_sendSeq]
  · rw [hentry, hsend, clockRises_sendSeq]

/-- Settles O48: the words by evaluation; samples and transactions are counted over the stream of operations, all of which leave
the bus released. -/
theorem initWordsInOrder : Obligations.InitWordsInOrder := by
  refine ⟨by decide, rfl, fun c levels => ⟨?_, ?_⟩⟩
  · rw [samplesIn_flatMap_expand]
    rfl
  · rw [conditionsOf_flatMap_expand_released c lcdInitOps levels (by decide)]
    rfl

/-- Settles O53: the duty carries "SCL is low inside a transaction" along the stream, and with SCL low a bit operation makes no
condition. -/
theorem bitOpsInsideMakeNoCondition : Obligations.BitOpsInsideMakeNoCondition := by
  intro c before after i levels hduty hbit
  obtain ⟨inside, hinside, hlow⟩ := bitOpsInside_low (cd := (true, true)) hduty (fun h => Bool.noConfusion h)
  have hi : (∃ b, i = .i2cWbit b) ∨ i = .i2cRbit ∨ ∃ d, i = .i2cWbyte d := by
    revert hbit
    cases i <;> simp
  have hin : inside = true := by
    rcases hi with ⟨b, rfl⟩ | rfl | ⟨d, rfl⟩ <;> exact (Bool.and_eq_true_iff.1 hinside).1
  exact ⟨hlow hin, conditionsOf_bitOp_low levels hi (hlow hin)⟩

end Sys2Proof.Machine
end

section
/-! PROOFS. The block between two steps: the accept step, the host port, the micro-step, STATUS, and what reads RESULT. -/

namespace Sys2Proof.Machine

/-! What a block that takes a word becomes (10_state R34). -/

theorem State.refused_eq_false_iff (s : State) : s.refused = false ↔ s.refusal = none := by
  simp [State.refused]

theorem State.tick_takeWord {s : State} {w : Word} {rest : List Word} (hs : s.stream = w :: rest) :
    s.tick.takeWord = { s with stream := rest, resetIn := s.resetIn.tail } := by
  simp [State.takeWord, State.tick, hs]

/-- `step_of_legal` with the accept carried out: no reset, not busy and not refused is all the accept asks. -/
theorem step_of_legal_load {s : State} {w : Word} {rest : List Word} {i : Instr} (h : s.resetNow = false)
    (hb : s.busy = false) (hr : s.refusal = none) (hs : s.stream = w :: rest) (hd : decode w = .ok i) :
    step s = .next (s.tick.takeWord.load (expand s.config i)) := by
  have hready : s.tick.takeWord.ready = true := (State.ready_iff _).2 ⟨hb, hr⟩
  rw [step_of_legal h hb hr hs hd, exec_of_ready hready]
  rfl

/-- Settles O8: a word at the port is decoded, and each answer of the decoder has its own step. -/
theorem acceptStep : Obligations.AcceptStep := by
  intro s w rest h hb href hs
  have hr := (State.refused_eq_false_iff s).1 href
  refine ⟨fun i hd => ⟨expand_ne_nil s.config i, ?_⟩, fun r hd => ?_⟩
  · rw [step_of_legal_load h hb hr hs hd, State.tick_takeWord hs]
    rfl
  · rw [step_of_illegal h hb hr hs hd, State.tick_takeWord hs]
    rfl

/-! The host port (10_state R33). -/

/-- A ready block takes the word presented, whether it decodes or not. -/
theorem step_takes_word {s : State} {w : Word} {rest : List Word} (hready : s.ready = true) (h : s.resetNow = false)
    (hs : s.stream = w :: rest) : ∃ t, step s = .next t ∧ t.stream = rest := by
  obtain ⟨hb, hr⟩ := (State.ready_iff s).1 hready
  cases hd : decode w with
  | ok i => exact ⟨_, step_of_legal_load h hb hr hs hd, by simp [hs]⟩
  | error r => exact ⟨_, step_of_illegal h hb hr hs hd, by simp [hs]⟩

/-- No step of a block that is not ready takes a word: the two cases of `step_cases` that take one need a ready block. -/
theorem step_holds_word {s t : State} (hready : s.ready = false) (h : step s = .next t) : t.stream = s.stream := by
  have hnot : ¬ (s.busy = false ∧ s.refusal = none) := fun hidle =>
    Bool.noConfusion (hready.symm.trans ((State.ready_iff s).2 hidle))
  obtain ⟨-, rfl⟩ | ⟨-, -, m, rest, -, rfl⟩ | ⟨-, -, -, -, rfl⟩ | ⟨-, hb, hr, -⟩ | ⟨-, hb, hr, -⟩ | ⟨-, hb, hr, -⟩ :=
    step_cases h
  · rfl
  · split <;> simp
  · rfl
  · exact absurd ⟨hb, hr⟩ hnot
  · exact absurd ⟨hb, hr⟩ hnot
  · exact absurd ⟨hb, hr⟩ hnot

/-- Settles O9: a ready block takes the word, any other holds it, and the last micro-step of an operation makes ready. -/
theorem wordHeldUntilReady : Obligations.WordHeldUntilReady := by
  refine ⟨fun _ => rfl, fun _ _ _ => step_takes_word, fun _ _ => step_holds_word, ?_⟩
  intro s m hb href hq h
  have hr := (State.refused_eq_false_iff s).1 href
  exact ⟨_, step_last h hb hq, (State.ready_iff _).2 ⟨rfl, by simp [hr]⟩⟩

/-! The micro-step (10_state R35). -/

/-- All a micro-action moves, beside `State.perform_frame`: a latch, or a sample and the bus's draw; and its one event. -/
theorem State.perform_effect (m : MicroAction) (s : State) :
    ((State.perform m s).sclOut = match m with | .setScl v => v | _ => s.sclOut) ∧
    ((State.perform m s).sdaOut = match m with | .setSda v => v | _ => s.sdaOut) ∧
    ((State.perform m s).samples = match m with | .sample => s.samples ++ [s.sdaOut && s.slaveSda] | _ => s.samples) ∧
    ((State.perform m s).trace = s.trace ++ [match m with
      | .setScl v => .setScl v
      | .setSda v => .setSda v
      | .delay k => .delay k
      | .sample => .sample (s.sdaOut && s.slaveSda)]) ∧
    ((State.perform m s).busIn = match m with | .sample => s.busIn.tail | _ => s.busIn) ∧
    ((State.perform m s).draws = match m with | .sample => s.draws + 1 | _ => s.draws) := by
  cases m <;> exact ⟨rfl, rfl, rfl, rfl, rfl, rfl⟩

/-- Settles O10: the micro-step is the head's `perform`, followed by the completion where it was the last. -/
theorem microStepPerformsHead : Obligations.MicroStepPerformsHead := by
  intro s m rest h hb hq
  obtain ⟨hscl, hsda, hsamples, htrace, hbusIn, hdraws⟩ := State.perform_effect m s
  obtain ⟨hconfig, -, hbusy, hresult, hrefusal, hstream, -, hcut⟩ := State.perform_frame m s
  cases rest with
  | nil =>
    exact ⟨_, step_last h hb hq, rfl, hscl, hsda, hsamples, htrace, fun _ => ⟨rfl, rfl⟩, fun hne => absurd rfl hne,
      hconfig, hrefusal, hstream, rfl, hcut, hbusIn, hdraws⟩
  | cons n rest =>
    have hne : n :: rest ≠ [] := List.cons_ne_nil n rest
    exact ⟨_, step_within h hb hq hne, rfl, hscl, hsda, hsamples, htrace, fun hnil => absurd hnil hne,
      fun _ => ⟨hbusy.trans hb, hresult⟩, hconfig, hrefusal, hstream, rfl, hcut, hbusIn, hdraws⟩

/-! A block with another RESULT (10_state R31). -/

/-- The block with another value in RESULT. -/
def State.setResult (r : Word) (s : State) : State := { s with result := r }

theorem State.perform_setResult (r : Word) (m : MicroAction) (s : State) :
    State.perform m (State.setResult r s) = State.setResult r (State.perform m s) := by
  cases m <;> rfl

/-- Two blocks that differ in RESULT alone do the same step and differ in RESULT alone after it: a completion or a reset gives both
one RESULT, any other step keeps each its own. -/
theorem step_setResult {s t : State} (r : Word) (h : step s = .next t) :
    ∃ r', step (State.setResult r s) = .next (State.setResult r' t) := by
  obtain ⟨h0, rfl⟩ | ⟨h0, hb, m, rest, hq, -⟩ | ⟨h0, hb, ⟨why, hr⟩, hahead, rfl⟩ | ⟨h0, hb, hr, hs, rfl⟩ |
    ⟨h0, hb, hr, w, rest, i, hs, hd, rfl⟩ | ⟨h0, hb, hr, w, rest, why, hs, hd, rfl⟩ := step_cases h
  · exact ⟨0x0000#16, step_of_reset h0⟩
  · cases rest with
    | nil =>
      obtain rfl := Host.Outcome.next.inj ((step_last h0 hb hq).symm.trans h)
      refine ⟨packResult (State.perform m s).samples, ?_⟩
      rw [step_last (s := State.setResult r s) h0 hb hq, State.perform_setResult]
      rfl
    | cons n rest =>
      have hne : n :: rest ≠ [] := List.cons_ne_nil n rest
      obtain rfl := Host.Outcome.next.inj ((step_within h0 hb hq hne).symm.trans h)
      refine ⟨r, ?_⟩
      rw [step_within (s := State.setResult r s) h0 hb hq hne, State.perform_setResult]
      rfl
  · exact ⟨r, (step_of_refused (s := State.setResult r s) h0 hb hr).trans (if_pos hahead)⟩
  · exact ⟨r, step_of_idle (s := State.setResult r s) h0 hb hr hs⟩
  · exact ⟨r, step_of_legal_load (s := State.setResult r s) h0 hb hr hs hd⟩
  · exact ⟨r, step_of_illegal (s := State.setResult r s) h0 hb hr hs hd⟩

/-- Settles O34: the step of the block with another RESULT is the same step, RESULT put back. -/
theorem resultIsAdvisory : Obligations.ResultIsAdvisory := by
  intro s t r h
  obtain ⟨r', hstep⟩ := step_setResult r h
  exact ⟨State.setResult r' t, hstep, rfl⟩

/-! STATUS (10_state R28). -/

/-- Settles O35: STATUS is made of two bits, and each of their four values shows every field. -/
theorem statusFields : Obligations.StatusFields := by
  refine ⟨fun s => ?_, rfl⟩
  unfold State.status
  generalize s.busy = busy, s.refused = refused
  revert busy refused
  decide

end Sys2Proof.Machine
end

section
/-! PROOFS. The wire formats: the address byte and the transport byte, field by field (30_encoding R66 to R68). -/

namespace Sys2Proof.Machine

/-! The transport byte. -/

/-- A control mask has its own bit and no other. -/
theorem getLsbD_controlMask (p q : Fin 4) : (controlMask p).getLsbD q.val = decide (p = q) := by
  revert p q
  decide

/-- What stands in a bit of [3:0]: the nibble is above it, so each control bit that is asked for sets its own place alone
(30_encoding R68). -/
theorem getLsbD_tb (c : Config) (n : Nibble) (rs en : Bit) (q : Fin 4) :
    (tb c n rs en).getLsbD q.val =
      (c.backlight && decide (c.bitMap.blBit = q) || en && decide (c.bitMap.enBit = q) ||
        rs && decide (c.bitMap.rsBit = q)) := by
  have hnibble : (n.setWidth 8 <<< 4).getLsbD q.val = false := by simp
  have hasked (b : Bit) (p : Fin 4) :
      (if b then controlMask p else 0#8).getLsbD q.val = (b && decide (p = q)) := by
    cases b <;> simp [getLsbD_controlMask]
  simp [tb, blv, blMask, enMask, rsMask, hnibble, hasked]

/-- The BL bit of a transport byte: under a legal map neither EN nor RS stands in its place. -/
theorem getLsbD_tb_blBit {c : Config} (h : c.bitMap.Legal) (n : Nibble) (rs en : Bit) :
    (tb c n rs en).getLsbD c.bitMap.blBit.val = c.backlight := by
  obtain ⟨-, -, hrs, -, -, hen⟩ := h
  simp [getLsbD_tb, hrs, hen]

/-- Settles O25: `tb_fields` has every field but BL, whose bit no other control bit of a legal map touches. -/
theorem transportByteFields : Obligations.TransportByteFields := by
  intro c n rs en h
  obtain ⟨hnibble, hrw, hen, hrs⟩ := tb_fields c n rs en h
  exact ⟨hnibble, hrw, getLsbD_tb_blBit h n rs en, hen, hrs⟩

/-! The address byte. -/

/-- The address byte as a number: the 7-bit address moved up by the write bit. -/
theorem toNat_addrByte (c : Config) : (addrByte c).toNat = 2 * c.devAddr7.toNat := by
  have happend : (addrByte c).toNat = c.devAddr7.toNat <<< 1 ||| (0#1).toNat := BitVec.toNat_append ..
  simp [happend, Nat.shiftLeft_eq, Nat.mul_comm]

/-- Bits [7:1] of the address byte. -/
theorem extractLsb'_addrByte (c : Config) : (addrByte c).extractLsb' 1 7 = c.devAddr7 := by
  apply BitVec.eq_of_toNat_eq
  rw [BitVec.extractLsb'_toNat, toNat_addrByte, Nat.shiftRight_eq_div_pow]
  omega

/-- A pulse begins with START and the address byte (30_encoding R69). -/
theorem pulseSeq_begins (c : Config) (n : Nibble) (rs : Bit) :
    ∃ rest, pulseSeq c n rs = startSeq ++ wbyteSeq (addrByte c) ++ rest :=
  ⟨wbyteSeq (tb c n rs true) ++ [.delay .settle] ++ wbyteSeq (tb c n rs false) ++ [.delay .settle] ++ stopSeq, by
    simp only [pulseSeq, List.append_assoc]⟩

/-- Settles O24: the byte is twice the address, so its write bit is 0; it stands in the pulse right after START. -/
theorem addressByteIsWriteAddress : Obligations.AddressByteIsWriteAddress := by
  refine ⟨fun c => ⟨extractLsb'_addrByte c, ?_, toNat_addrByte c⟩, rfl, pulseSeq_begins⟩
  simp [BitVec.getLsbD, toNat_addrByte]

end Sys2Proof.Machine
end

section
/-! PROOFS. The bit level (40_bit_level): RESULT field by field, then the run of an operation that takes no sample and of one that
takes one, of which each bit-level operation is a case. -/

namespace Sys2Proof.Machine

open Sys2Proof.Safety

/-! RESULT, field by field (10_state R26). -/

theorem getLsbD_packSamples (samples : List Bit) {k : Nat} (hk : k < 6) :
    (packSamples samples).getLsbD k = samples.getD k false := by
  induction samples generalizing k with
  | nil => simp [packSamples]
  | cons s rest ih =>
    cases k with
    | zero => simp [packSamples]
    | succ k =>
      have hk' : k < 6 := Nat.lt_of_succ_lt hk
      simpa [packSamples, hk, hk'] using ih hk'

/-- The fields of RESULT by their places, whatever the samples: all but SAMPLES stand above them, and are made of NACK and NSAMP
alone. -/
theorem packResult_fields (samples : List Bit) :
    Word.field (packResult samples) 0 6 = packSamples samples ∧ Word.field (packResult samples) 6 2 = 0 ∧
    Word.field (packResult samples) 8 3 = BitVec.ofNat 3 samples.length ∧
    (packResult samples).getLsbD 11 = false ∧ (packResult samples).getLsbD 12 = nackOf samples ∧
    Word.field (packResult samples) 13 3 = 0 := by
  refine ⟨BitVec.extractLsb'_append_eq_right, (BitVec.extractLsb'_append_eq_of_le (by decide)).trans ?_,
    (BitVec.extractLsb'_append_eq_of_le (by decide)).trans ?_, (BitVec.getLsbD_append.trans (if_neg (by decide))).trans ?_,
    (BitVec.getLsbD_append.trans (if_neg (by decide))).trans ?_,
    (BitVec.extractLsb'_append_eq_of_le (by decide)).trans ?_⟩
  all_goals
    generalize nackOf samples = nack, BitVec.ofNat 3 samples.length = nsamp
    revert nack nsamp
    decide

/-- RESULT holds the samples where their number fits its field. -/
theorem resultSays_packResult {samples : List Bit} (h : samples.length ≤ 6) :
    ResultSays (packResult samples) samples := by
  obtain ⟨hbits, hlow, hnsamp, hmid, hnack, hhigh⟩ := packResult_fields samples
  refine ⟨?_, hnack, fun k hk => ?_, hlow, hmid, hhigh⟩
  · rw [hnsamp, BitVec.toNat_ofNat]
    omega
  · rw [← getLsbD_packSamples samples hk, ← hbits]
    simp [hk]

/-- No sample gives 0x0000 (40_bit_level R100). -/
theorem packResult_nil : packResult [] = 0x0000#16 := rfl

/-- One sample gives 0x1101 or 0x0100 (40_bit_level R106). -/
theorem packResult_singleton (b : Bit) : packResult [b] = if b then 0x1101#16 else 0x0100#16 := by
  revert b
  decide

/-! The run of an operation by its number of samples (30_encoding R77). -/

/-- An operation that takes no sample leaves RESULT 0x0000, and its events do not depend on the bus. -/
theorem exec_run_of_no_sample {i : Instr} {s : State} (hi : sampleCount i = 0) (hr : s.ready = true)
    (hq : Quiet (microCount i) s) :
    ∃ t u, exec i s = .next t ∧ Accepted s t ∧ run (microCount i) t = .next u ∧ Completed (microCount i) 0 s u ∧
      u.trace = s.trace ++ eventsOf (expand s.config i) [] ∧ u.result = 0x0000#16 ∧
      u.latches = exitLatches s.latches i := by
  obtain ⟨t, u, hexec, hload, hrun, hdone, htrace, hexit⟩ := exec_run hr hq
  rw [hi] at hdone htrace
  exact ⟨t, u, hexec, hload, hrun, hdone, htrace, hdone.result.trans packResult_nil, hexit⟩

/-- An operation that takes one sample leaves that sample in RESULT and in its events. -/
theorem exec_run_of_one_sample {i : Instr} {s : State} (hi : sampleCount i = 1) (hr : s.ready = true)
    (hq : Quiet (microCount i) s) :
    ∃ t u, exec i s = .next t ∧ Accepted s t ∧ run (microCount i) t = .next u ∧ Completed (microCount i) 1 s u ∧
      u.trace = s.trace ++ eventsOf (expand s.config i) [s.slaveSda] ∧ ResultSays u.result [s.slaveSda] ∧
      u.result = (if s.slaveSda then 0x1101#16 else 0x0100#16) ∧ u.latches = exitLatches s.latches i := by
  obtain ⟨t, u, hexec, hload, hrun, hdone, htrace, hexit⟩ := exec_run hr hq
  rw [hi] at hdone htrace
  have hresult : u.result = packResult [s.slaveSda] := hdone.result
  refine ⟨t, u, hexec, hload, hrun, hdone, htrace, ?_, ?_, hexit⟩
  · rw [hresult]
    exact resultSays_packResult (Nat.le_of_ble_eq_true rfl)
  · rw [hresult, packResult_singleton]

/-! The statements. -/

/-- Settles O11: the start sequence takes no sample and ends with both latches low. -/
theorem startRunsItsExpansion : Obligations.StartRunsItsExpansion :=
  ⟨rfl, fun _ hr hq => exec_run_of_no_sample (i := .i2cStart) rfl hr hq⟩

/-- Settles O13: the stop sequence takes no sample and ends with both latches high. -/
theorem stopRunsItsExpansion : Obligations.StopRunsItsExpansion :=
  ⟨rfl, fun _ hr hq => exec_run_of_no_sample (i := .i2cStop) rfl hr hq⟩

/-- Settles O15: a write bit takes no sample, so no bus can change what it does. -/
theorem writeBitRunsItsExpansion : Obligations.WriteBitRunsItsExpansion := by
  intro b
  refine ⟨?_, fun _ hr hq => exec_run_of_no_sample (i := .i2cWbit b) rfl hr hq⟩
  cases b <;> rfl

/-- Settles O17: SDA is released before the one sample, so the sample is the level the devices leave. -/
theorem readBitSamplesSlave : Obligations.ReadBitSamplesSlave :=
  ⟨rfl, fun _ hr hq => exec_run_of_one_sample (i := .i2cRbit) rfl hr hq⟩

/-- Settles O18: a wait is one delay, which takes no sample and moves no latch. -/
theorem waitOnlyDelays : Obligations.WaitOnlyDelays := by
  intro k
  refine ⟨?_, fun _ hr hq => exec_run_of_no_sample (i := .wait k) rfl hr hq⟩
  cases k <;> rfl

end Sys2Proof.Machine
end

section
/-! PROOFS. The byte transmitter (41_byte_transfer): the word of an operation whose operand is a byte, the decoding of I2C_WBYTE, and
its run. -/

namespace Sys2Proof.Machine

/-- A byte operand stands below the byte that names the operation (30_encoding R61, R63). -/
theorem shiftLeft_or_byte_eq_append (h d : Byte) : (h.setWidth 16 <<< 8) ||| d.setWidth 16 = h ++ d := by
  rw [← BitVec.setWidth_append_eq_shiftLeft_setWidth_or, BitVec.setWidth_eq]

/-- The opcode and the reserved bits are the high byte 0x50, whatever the operand. -/
theorem decode_wbyteWord (d : Byte) : decode (0x5000#16 ||| d.setWidth 16) = .ok (.i2cWbyte d) := by
  have hword : 0x5000#16 ||| d.setWidth 16 = 0x50#8 ++ d := shiftLeft_or_byte_eq_append 0x50#8 d
  have hop : Word.field (0x50#8 ++ d) 12 4 = 0x5 := BitVec.extractLsb'_append_eq_of_le (by decide)
  have hreserved : Word.field (0x50#8 ++ d) 8 4 = 0 := BitVec.extractLsb'_append_eq_of_le (by decide)
  have hoperand : Word.field (0x50#8 ++ d) 0 8 = d := BitVec.extractLsb'_append_eq_right
  rw [hword, decode, hop, hreserved, hoperand]
  rfl

/-- Settles O19: a byte takes one sample, with SDA released, and its events are `BY` with that sample. -/
theorem writeByteSendsMsbFirst : Obligations.WriteByteSendsMsbFirst := by
  intro d
  refine ⟨decode_wbyteWord d, fun s hr hq => ?_⟩
  rw [← eventsOf_wbyteSeq d s.slaveSda []]
  exact exec_run_of_one_sample (i := .i2cWbyte d) rfl hr hq

end Sys2Proof.Machine
end

section
/-! PROOFS. The LCD transport (42_lcd_transport): the run of an operation whose samples are known, the events of a byte sent as two
pulses, and the decoding of the LCD words. -/

namespace Sys2Proof.Machine

open Sys2Proof.Safety

/-! The run of an operation on a bus whose coming levels are known. -/

/-- RESULT has room for the samples of any operation (10_state R26; 30_encoding R77). -/
theorem sampleCount_le_six (i : Instr) : sampleCount i ≤ 6 := by
  cases i <;> exact Nat.le_of_ble_eq_true rfl

/-- The levels the bus leaves at the samples of an operation are what its events and RESULT show; nothing else depends on them
(42_lcd_transport R130: a NACK stops nothing). -/
theorem exec_run_of_levels {i : Instr} {s : State} {levels : List Bit} (hr : s.ready = true) (hq : Quiet (microCount i) s)
    (hlevels : s.comingLevels (sampleCount i) = levels) :
    ∃ t u, exec i s = .next t ∧ Accepted s t ∧ run (microCount i) t = .next u ∧
      Completed (microCount i) (sampleCount i) s u ∧ u.trace = s.trace ++ eventsOf (expand s.config i) levels ∧
      ResultSays u.result levels ∧ u.latches = exitLatches s.latches i := by
  obtain ⟨t, u, hexec, hload, hrun, hdone, htrace, hexit⟩ := exec_run hr hq
  subst hlevels
  refine ⟨t, u, hexec, hload, hrun, hdone, htrace, ?_, hexit⟩
  have hlength : (s.comingLevels (sampleCount i)).length ≤ 6 :=
    (s.comingLevels_length _).trans_le (sampleCount_le_six i)
  rw [hdone.result]
  exact resultSays_packResult hlength

/-! The events of a byte sent as two pulses. -/

/-- The first three ACKs are those of the high nibble's transaction, the last three those of the low nibble's. -/
theorem eventsOf_sendSeq (c : Config) (d : Byte) (rs a0 a1 a2 a3 a4 a5 : Bit) :
    eventsOf (sendSeq c d rs) [a0, a1, a2, a3, a4, a5] =
      transaction (addrByte c) (tb c (d.extractLsb' 4 4) rs true) (tb c (d.extractLsb' 4 4) rs false) a0 a1 a2 ++
      transaction (addrByte c) (tb c (d.extractLsb' 0 4) rs true) (tb c (d.extractLsb' 0 4) rs false) a3 a4 a5 := by
  rw [sendSeq, eventsOf_append, samplesIn_pulseSeq, eventsOf_pulseSeq]
  exact congrArg _ (eventsOf_pulseSeq c (lowNibble d) rs a3 a4 a5 [])

/-! The words (30_encoding R61, R63). -/

/-- The word of LCD_PULSE is the byte 0x60, the nibble, three reserved bits and RS. -/
theorem pulseWord_eq_append (n : Nibble) (rs : Bit) :
    0x6000#16 ||| (n.setWidth 16 <<< 4) ||| (BitVec.ofBool rs).setWidth 16 =
      0x60#8 ++ (n ++ (0#3 ++ BitVec.ofBool rs)) := by
  have hselect : (BitVec.ofBool rs).setWidth 16 = (0#3 ++ BitVec.ofBool rs).setWidth 16 := by cases rs <;> rfl
  have hlow : (n.setWidth 16 <<< 4) ||| (0#3 ++ BitVec.ofBool rs).setWidth 16 =
      (n ++ (0#3 ++ BitVec.ofBool rs)).setWidth 16 := BitVec.setWidth_append_eq_shiftLeft_setWidth_or.symm
  rw [BitVec.or_assoc, hselect, hlow]
  exact shiftLeft_or_byte_eq_append 0x60#8 _

/-- The fields of a word of LCD_PULSE: opcode, upper reserved bits, nibble, lower reserved bits, RS. -/
theorem pulseWord_fields (n : Nibble) (rs : Bit) {w : Word} (hw : w = 0x60#8 ++ (n ++ (0#3 ++ BitVec.ofBool rs))) :
    Word.field w 12 4 = 0x6 ∧ Word.field w 8 4 = 0 ∧ Word.field w 4 4 = n ∧ Word.field w 1 3 = 0 ∧ w.getLsbD 0 = rs := by
  subst hw
  revert n rs
  decide

/-- The word of LCD_PULSE decodes to it, since both reserved fields are 0. -/
theorem decode_pulseWord (n : Nibble) (rs : Bit) :
    decode (0x6000#16 ||| (n.setWidth 16 <<< 4) ||| (BitVec.ofBool rs).setWidth 16) = .ok (.lcdPulse n rs) := by
  obtain ⟨hop, hhigh, hnibble, hlow, hselect⟩ := pulseWord_fields n rs (pulseWord_eq_append n rs)
  rw [decode, hop, hhigh, hnibble, hlow, hselect]
  rfl

/-- The high byte of a word of LCD_CMD or LCD_DATA is the opcode, three reserved bits and RS; the low byte is the operand. -/
theorem decode_sendWord {h : Byte} (hopcode : h.extractLsb' 4 4 = 0x7#4) (hclear : h.extractLsb' 1 3 = 0#3) (d : Byte) :
    decode ((h.setWidth 16 <<< 8) ||| d.setWidth 16) = .ok (if h.getLsbD 0 then .lcdData d else .lcdCmd d) := by
  have hop : Word.field (h ++ d) 12 4 = 0x7 := (BitVec.extractLsb'_append_eq_of_le (by decide)).trans hopcode
  have hreserved : Word.field (h ++ d) 9 3 = 0 := (BitVec.extractLsb'_append_eq_of_le (by decide)).trans hclear
  have hselect : (h ++ d).getLsbD 8 = h.getLsbD 0 := BitVec.getLsbD_append.trans (if_neg (by decide))
  have hoperand : Word.field (h ++ d) 0 8 = d := BitVec.extractLsb'_append_eq_right
  rw [shiftLeft_or_byte_eq_append, decode, hop, hreserved, hselect, hoperand]
  rfl

/-! The statements. -/

/-- Settles O21: a pulse is one transaction, whose three samples are its ACKs. -/
theorem pulseSendsOneTransaction : Obligations.PulseSendsOneTransaction := by
  intro n rs
  refine ⟨decode_pulseWord n rs, fun s a0 a1 a2 hr hq hlevels => ?_⟩
  rw [← eventsOf_pulseSeq s.config n rs a0 a1 a2 []]
  exact exec_run_of_levels (i := .lcdPulse n rs) hr hq hlevels

/-- Settles O22: a command is two pulses with RS 0, the high nibble first. -/
theorem commandSendsHighThenLow : Obligations.CommandSendsHighThenLow := by
  intro d
  refine ⟨decode_sendWord (h := 0x70#8) rfl rfl d, fun s a0 a1 a2 a3 a4 a5 hr hq hlevels => ?_⟩
  rw [List.append_assoc, ← eventsOf_sendSeq]
  exact exec_run_of_levels (i := .lcdCmd d) hr hq hlevels

/-- Settles O23: a data byte is two pulses with RS 1, the high nibble first. -/
theorem dataSendsHighThenLow : Obligations.DataSendsHighThenLow := by
  intro d
  refine ⟨decode_sendWord (h := 0x71#8) rfl rfl d, fun s a0 a1 a2 a3 a4 a5 hr hq hlevels => ?_⟩
  rw [List.append_assoc, ← eventsOf_sendSeq]
  exact exec_run_of_levels (i := .lcdData d) hr hq hlevels

end Sys2Proof.Machine
end

section
/-! PROOFS. The LCD command interface (43_lcd_command_interface): the words of the pseudo-instructions in numbers, and the lines the
assembler refuses. -/

namespace Sys2Proof.Machine

/-! The assembler either gives every word of a line or none (30_encoding R72). -/

theorem assemble_of_wellFormed {l : AsmLine} (h : l.wellFormed = true) :
    assemble l = some ((AsmLine.operations l).map encode) := if_pos h

theorem assemble_eq_none {l : AsmLine} (h : l.wellFormed = false) : assemble l = none :=
  if_neg (Bool.eq_false_iff.mp h)

/-- Only row 0 and row 1 and the columns below 64 are in range (43_lcd_command_interface R155, R156). -/
theorem wellFormed_lcdSetCursor (row col : Nat) :
    (AsmLine.lcdSetCursor row col).wellFormed = true ↔ row < 2 ∧ col < 64 := by
  simp [AsmLine.wellFormed, Config.displayRows]

theorem wellFormed_lcdPrint (s : List Nat) :
    (AsmLine.lcdPrint s).wellFormed = true ↔ ∀ ch ∈ s, ch < 256 := by
  simp [AsmLine.wellFormed]

/-! The words in numbers (30_encoding R61, R63). -/

/-- A byte operand that fits adds to the byte that names the operation without a carry. -/
theorem shiftLeft_or_ofNat_eq_ofNat (h : Byte) {d : Nat} (hd : d < 256) :
    (h.setWidth 16 <<< 8) ||| (BitVec.ofNat 8 d).setWidth 16 = BitVec.ofNat 16 (h.toNat * 256 + d) := by
  have hsum : h.toNat <<< 8 ||| d = h.toNat * 256 + d := by
    rw [← Nat.shiftLeft_add_eq_or_of_lt hd, Nat.shiftLeft_eq]
  have hfits : h.toNat * 256 + d < 2 ^ 16 := by omega
  rw [shiftLeft_or_byte_eq_append]
  apply BitVec.eq_of_toNat_eq
  rw [BitVec.toNat_append, BitVec.toNat_ofNat, BitVec.toNat_ofNat, Nat.mod_eq_of_lt hd, Nat.mod_eq_of_lt hfits, hsum]

theorem encode_lcdCmd {d : Nat} (hd : d < 256) : encode (.lcdCmd (BitVec.ofNat 8 d)) = BitVec.ofNat 16 (0x7000 + d) :=
  shiftLeft_or_ofNat_eq_ofNat 0x70#8 hd

theorem encode_lcdData {d : Nat} (hd : d < 256) : encode (.lcdData (BitVec.ofNat 8 d)) = BitVec.ofNat 16 (0x7100 + d) :=
  shiftLeft_or_ofNat_eq_ofNat 0x71#8 hd

/-- A command and the wait after it (43_lcd_command_interface R150). -/
theorem map_encode_lcdCommandOps {d : Nat} (hd : d < 256) :
    (lcdCommandOps (BitVec.ofNat 8 d)).map encode = [BitVec.ofNat 16 (0x7000 + d), 0x8002#16] :=
  congrArg (· :: [0x8002#16]) (encode_lcdCmd hd)

theorem map_encode_lcdPrintOps {s : List Nat} (hs : ∀ ch ∈ s, ch < 256) :
    (lcdPrintOps (s.map (BitVec.ofNat 8))).map encode = s.map fun ch => BitVec.ofNat 16 (0x7100 + ch) := by
  rw [lcdPrintOps, List.map_map, List.map_map]
  exact List.map_congr_left fun ch hch => encode_lcdData (hs ch hch)

/-- Every column of a row in range gives a command that fits a byte, so nothing wraps (43_lcd_command_interface R155, R156). -/
theorem cursorBase_add_lt (row : Nat) {col : Nat} (hcol : col < 64) : cursorBase row + col < 256 := by
  unfold cursorBase
  split <;> omega

/-- LCD_SETCURSOR in range is the command `base(row) + col` and its wait. -/
theorem assemble_lcdSetCursor {row col : Nat} (hrow : row < 2) (hcol : col < 64) :
    assemble (.lcdSetCursor row col) = some [BitVec.ofNat 16 (0x7000 + cursorBase row + col), 0x8002#16] := by
  rw [assemble_of_wellFormed ((wellFormed_lcdSetCursor row col).mpr ⟨hrow, hcol⟩), Nat.add_assoc]
  exact congrArg some (map_encode_lcdCommandOps (cursorBase_add_lt row hcol))

/-! The statements. -/

/-- Settles O50: the two rows differ in the base of the command only, and no other row or column is well-formed. -/
theorem setCursorWords : Obligations.SetCursorWords := by
  intro row col
  refine ⟨?_, ?_, fun hout => assemble_eq_none ?_⟩
  · rintro rfl hcol
    exact assemble_lcdSetCursor Nat.zero_lt_two hcol
  · rintro rfl hcol
    exact assemble_lcdSetCursor Nat.one_lt_two hcol
  · rw [Bool.eq_false_iff, Ne, wellFormed_lcdSetCursor]
    omega

/-- Settles O51: each line is well-formed, and each of its operations has its word; a string has one for each character. -/
theorem commandClearPrintWords : Obligations.CommandClearPrintWords := by
  refine ⟨fun c hc => ?_, rfl, fun s hs => ?_⟩
  · have hwf : (AsmLine.lcdCommand c).wellFormed = true := decide_eq_true hc
    rw [assemble_of_wellFormed hwf]
    exact congrArg some (map_encode_lcdCommandOps hc)
  · rw [assemble_of_wellFormed ((wellFormed_lcdPrint s).mpr hs)]
    exact congrArg some (map_encode_lcdPrintOps hs)

end Sys2Proof.Machine
end

section
/-! PROOFS. The refusal of an illegal word (60_exceptions R172): what a marked block shows, and which steps keep the mark. -/

namespace Sys2Proof.Machine

/-! What the mark shows at the port and in STATUS (10_state R28, R33). -/

theorem State.ready_of_refused {s : State} (href : s.refused = true) : s.ready = false := by
  simp [State.ready, href]

theorem State.status_of_refused {s : State} (hb : s.busy = false) (href : s.refused = true) : s.status = 0x0002#16 := by
  rw [State.status, hb, href]
  rfl

/-- A refused block that is not reset keeps the mark with its reason: it does a micro-step or it holds, and it takes no word. -/
theorem step_keeps_refusal {s t : State} (href : s.refused = true) (h : step s = .next t) (h0 : s.resetNow = false) :
    t.refusal = s.refusal := by
  have hmark : s.refusal ≠ none := Option.isSome_iff_ne_none.mp href
  obtain ⟨hreset, -⟩ | ⟨-, -, m, rest, -, rfl⟩ | ⟨-, -, -, -, rfl⟩ | ⟨-, -, hr, -⟩ | ⟨-, -, hr, -⟩ | ⟨-, -, hr, -⟩ :=
    step_cases h
  · exact Bool.noConfusion (hreset.symm.trans h0)
  · split <;> simp
  · rfl
  · exact absurd hr hmark
  · exact absurd hr hmark
  · exact absurd hr hmark

/-! The statement. -/

/-- Settles O40: the step of an illegal word is the refusal alone; of the steps of a marked block only the reset clears the mark. -/
theorem illegalWordRefused : Obligations.IllegalWordRefused := by
  refine ⟨fun s w rest r h0 hready hs hd => ?_, fun s t href h h0 => ?_, fun s t h h0 => ?_⟩
  · obtain ⟨hb, hr⟩ := (State.ready_iff s).1 hready
    have hstep := step_of_illegal h0 hb hr hs hd
    rw [State.tick_takeWord hs] at hstep
    exact ⟨_, hstep, rfl, rfl, State.status_of_refused hb rfl, State.ready_of_refused rfl⟩
  · have hkept := step_keeps_refusal href h h0
    exact ⟨hkept, State.ready_of_refused ((congrArg Option.isSome hkept).trans href)⟩
  · obtain rfl := Host.Outcome.next.inj ((step_of_reset h0).symm.trans h)
    rfl

end Sys2Proof.Machine
end

section
/-! PROOFS. What a reset leaves (70_reset_and_hazards R190): what the block shows at the port and in STATUS, and where a reset
step goes. -/

namespace Sys2Proof.Machine

/-- A ready block shows neither bit of STATUS (10_state R28, R33). -/
theorem State.status_of_ready {s : State} (hready : s.ready = true) : s.status = 0x0000#16 := by
  obtain ⟨hb, hr⟩ := (State.ready_iff s).mp hready
  rw [State.status, State.refused, hb, hr]
  rfl

@[simp] theorem State.doReset_refused (s : State) : s.doReset.refused = false := rfl
@[simp] theorem State.doReset_ready (s : State) : s.doReset.ready = true := rfl
@[simp] theorem State.doReset_status (s : State) : s.doReset.status = 0x0000#16 := State.status_of_ready s.doReset_ready

/-- The step of an asserted reset goes nowhere but to the reset of the block. -/
theorem eq_doReset_of_step {s t : State} (h0 : s.resetNow = true) (h : step s = .next t) : t = s.tick.doReset :=
  Host.Outcome.next.inj (h.symm.trans (step_of_reset h0))

/-! The statement. -/

/-- Settles O42: the reset state has its values by definition, and a reset step leaves `doReset`, which sets each of them. -/
theorem resetState : Obligations.ResetState := by
  refine ⟨?_, fun s0 h0 => ⟨s0.tick.doReset, step_of_reset h0, rfl, rfl⟩, rfl, rfl, rfl⟩
  rintro s (rfl | ⟨s0, h0, hstep⟩)
  case inl =>
    exact ⟨rfl, rfl, rfl, rfl, rfl, rfl, State.status_of_ready rfl, rfl, rfl, rfl⟩
  case inr =>
    obtain rfl := eq_doReset_of_step h0 hstep
    simp

end Sys2Proof.Machine
end

section
/-! PROOFS. The operation word (30_encoding): which fields a word of each operation has, that `decode` reads exactly those, and
what follows for `encode`, the opcode map and the illegal words. -/

namespace Sys2Proof

/-- The fields a word of an operation has: its opcode, its reserved bits 0, its operands (30_encoding R62, R63). -/
def Instr.IsWord (w : Word) : Instr → Prop
  | .i2cStart => Word.field w 12 4 = 1 ∧ Word.field w 0 12 = 0
  | .i2cStop => Word.field w 12 4 = 2 ∧ Word.field w 0 12 = 0
  | .i2cWbit b => Word.field w 12 4 = 3 ∧ Word.field w 1 11 = 0 ∧ w.getLsbD 0 = b
  | .i2cRbit => Word.field w 12 4 = 4 ∧ Word.field w 0 12 = 0
  | .i2cWbyte d => Word.field w 12 4 = 5 ∧ Word.field w 8 4 = 0 ∧ Word.field w 0 8 = d
  | .lcdPulse n rs =>
    Word.field w 12 4 = 6 ∧ Word.field w 8 4 = 0 ∧ Word.field w 1 3 = 0 ∧ Word.field w 4 4 = n ∧ w.getLsbD 0 = rs
  | .lcdCmd d => Word.field w 12 4 = 7 ∧ Word.field w 9 3 = 0 ∧ w.getLsbD 8 = false ∧ Word.field w 0 8 = d
  | .lcdData d => Word.field w 12 4 = 7 ∧ Word.field w 9 3 = 0 ∧ w.getLsbD 8 = true ∧ Word.field w 0 8 = d
  | .wait k => Word.field w 12 4 = 8 ∧ Word.field w 3 9 = 0 ∧ Word.field w 0 3 = k.code

/-- The codes above 4 are reserved (30_encoding R62). -/
theorem DelayClass.isSome_ofCode? (code : BitVec 3) : (DelayClass.ofCode? code).isSome = decide (code.toNat ≤ 4) := by
  revert code
  decide

/-- The codes 0 to 4 are those of the classes, and no other is one (30_encoding R62). -/
theorem DelayClass.ofCode?_eq_some_iff (code : BitVec 3) (k : DelayClass) :
    DelayClass.ofCode? code = some k ↔ code = k.code := by
  cases k <;> revert code <;> decide

/-- What `unlessReserved` gives is the operation it was asked for, its reserved bits 0. -/
theorem isWord_of_unlessReserved {w : Word} {clear : Bool} {i j : Instr} (h : unlessReserved clear i = .ok j)
    (hi : clear = true → i.IsWord w) : j.IsWord w := by
  cases clear with
  | false => cases h
  | true =>
    obtain rfl := Except.ok.inj h
    exact hi rfl

theorem isWord_of_decode {w : Word} {i : Instr} (h : decode w = .ok i) : i.IsWord w := by
  simp only [decode] at h
  split_ifs at h with hop hop hop hop hop hop hop hrs hop hclear
  · exact isWord_of_unlessReserved h fun hclear => ⟨hop, eq_of_beq hclear⟩
  · exact isWord_of_unlessReserved h fun hclear => ⟨hop, eq_of_beq hclear⟩
  · exact isWord_of_unlessReserved h fun hclear => ⟨hop, eq_of_beq hclear, rfl⟩
  · exact isWord_of_unlessReserved h fun hclear => ⟨hop, eq_of_beq hclear⟩
  · exact isWord_of_unlessReserved h fun hclear => ⟨hop, eq_of_beq hclear, rfl⟩
  · refine isWord_of_unlessReserved h fun hclear => ?_
    obtain ⟨hhigh, hlow⟩ := Bool.and_eq_true_iff.1 hclear
    exact ⟨hop, eq_of_beq hhigh, eq_of_beq hlow, rfl, rfl⟩
  · exact isWord_of_unlessReserved h fun hclear => ⟨hop, eq_of_beq hclear, hrs, rfl⟩
  · exact isWord_of_unlessReserved h fun hclear => ⟨hop, eq_of_beq hclear, Bool.eq_false_iff.2 hrs, rfl⟩
  · split at h
    · obtain rfl := Except.ok.inj h
      exact ⟨hop, not_not.1 hclear, (DelayClass.ofCode?_eq_some_iff _ _).1 ‹_›⟩
    · cases h

theorem decode_of_isWord {w : Word} {i : Instr} (h : i.IsWord w) : decode w = .ok i := by
  cases i with
  | i2cStart | i2cStop | i2cRbit =>
    obtain ⟨hop, hclear⟩ := h
    simp [decode, hop, hclear, unlessReserved]
  | i2cWbit b | i2cWbyte d =>
    obtain ⟨hop, hclear, rfl⟩ := h
    simp [decode, hop, hclear, unlessReserved]
  | lcdPulse n rs =>
    obtain ⟨hop, hhigh, hlow, rfl, rfl⟩ := h
    simp [decode, hop, hhigh, hlow, unlessReserved]
  | lcdCmd d | lcdData d =>
    obtain ⟨hop, hclear, hrs, rfl⟩ := h
    simp only [decode, hop, hclear, hrs]
    rfl
  | wait k =>
    obtain ⟨hop, hclear, hk⟩ := h
    simp [decode, hop, hclear, (DelayClass.ofCode?_eq_some_iff _ _).2 hk]

/-- The decoder gives an operation exactly to the words that have its fields. -/
theorem decode_eq_ok_iff (w : Word) (i : Instr) : decode w = .ok i ↔ i.IsWord w :=
  ⟨isWord_of_decode, decode_of_isWord⟩

/-! The words in numbers: a field is a quotient reduced, and the fields of an operation's word sum to one number. -/

theorem field_eq_iff (w : Word) (lo : Nat) {len : Nat} (v : BitVec len) :
    Word.field w lo len = v ↔ w.toNat / 2 ^ lo % 2 ^ len = v.toNat := by
  rw [← BitVec.toNat_inj, BitVec.extractLsb'_toNat, Nat.shiftRight_eq_div_pow]

theorem getLsbD_eq_iff (w : Word) (k : Nat) (b : Bit) : w.getLsbD k = b ↔ w.toNat / 2 ^ k % 2 = b.toNat := by
  rw [BitVec.getLsbD, Nat.testBit_eq_decide_div_mod_eq]
  cases b <;> simp

/-- The word column of the assembler table, as a number (30_encoding R72). -/
def Instr.code : Instr → Nat
  | .i2cStart => 0x1000
  | .i2cStop => 0x2000
  | .i2cWbit b => 0x3000 + b.toNat
  | .i2cRbit => 0x4000
  | .i2cWbyte d => 0x5000 + d.toNat
  | .lcdPulse n rs => 0x6000 + n.toNat * 16 + rs.toNat
  | .lcdCmd d => 0x7000 + d.toNat
  | .lcdData d => 0x7100 + d.toNat
  | .wait k => 0x8000 + k.code.toNat

/-- The fields of an operation's word fix the word. -/
theorem isWord_iff_code (w : Word) (i : Instr) : i.IsWord w ↔ w.toNat = i.code := by
  have hw : w.toNat < 2 ^ 16 := w.isLt
  cases i with
  | i2cWbit b | lcdPulse n b =>
    have hb : b.toNat < 2 := Bool.toNat_lt b
    simp only [Instr.IsWord, Instr.code, field_eq_iff, getLsbD_eq_iff, BitVec.ofNat_eq_ofNat, BitVec.toNat_ofNat]
    omega
  | i2cStart | i2cStop | i2cRbit | i2cWbyte d | lcdCmd d | lcdData d | wait k =>
    simp only [Instr.IsWord, Instr.code, field_eq_iff, getLsbD_eq_iff, BitVec.ofNat_eq_ofNat, BitVec.toNat_ofNat,
      Bool.toNat_true, Bool.toNat_false]
    omega

/-- The decoder gives an operation to the one word that is its number in the word column. -/
theorem decode_eq_ok_iff_code (w : Word) (i : Instr) : decode w = .ok i ↔ w.toNat = i.code :=
  (decode_eq_ok_iff w i).trans (isWord_iff_code w i)

theorem decode_encode (i : Instr) : decode (encode i) = .ok i := by
  cases i with
  | i2cStart | i2cStop | i2cRbit => rfl
  | i2cWbit b => cases b <;> rfl
  | i2cWbyte d => exact Machine.decode_wbyteWord d
  | lcdPulse n rs => exact Machine.decode_pulseWord n rs
  | lcdCmd d => exact Machine.decode_sendWord (h := 0x70#8) rfl rfl d
  | lcdData d => exact Machine.decode_sendWord (h := 0x71#8) rfl rfl d
  | wait k => cases k <;> rfl

theorem toNat_encode (i : Instr) : (encode i).toNat = i.code :=
  (decode_eq_ok_iff_code _ i).1 (decode_encode i)

theorem encode_of_decode {w : Word} {i : Instr} (h : decode w = .ok i) : encode i = w :=
  BitVec.eq_of_toNat_eq ((toNat_encode i).trans ((decode_eq_ok_iff_code w i).1 h).symm)

/-- Settles O2: both inverses follow from the word column, which numbers each operation by one word. -/
theorem encodeInvertsDecode : Obligations.EncodeInvertsDecode :=
  ⟨decode_encode, fun _ _ => encode_of_decode, rfl, rfl, rfl, fun b => toNat_encode (.i2cWbit b),
    fun d => toNat_encode (.i2cWbyte d), fun n rs => toNat_encode (.lcdPulse n rs), fun d => toNat_encode (.lcdCmd d),
    fun d => toNat_encode (.lcdData d), rfl, rfl, rfl, rfl, rfl⟩

/-! The opcode map (30_encoding R63). -/

theorem legal_iff (w : Word) : legal w = true ↔ ∃ i, decode w = .ok i := by
  unfold legal
  cases decode w <;> simp

/-- A field that a mask selects whole is the pattern's. -/
theorem field_of_masked {w mask pattern : Word} {lo len : Nat} (h : w &&& mask = pattern)
    (hmask : mask.extractLsb' lo len = BitVec.allOnes len) : Word.field w lo len = pattern.extractLsb' lo len := by
  rw [← h, BitVec.extractLsb'_and, hmask, BitVec.and_allOnes]

theorem getLsbD_of_masked {w mask pattern : Word} {k : Nat} (h : w &&& mask = pattern)
    (hmask : mask.getLsbD k = true) : w.getLsbD k = pattern.getLsbD k := by
  rw [← h, BitVec.getLsbD_and, hmask, Bool.and_true]

/-- A row selects words of its own operations alone. -/
theorem decode_of_selects {r : OpcodeRow} {w : Word} (hr : r ∈ opcodeMap) (h : r.selects w = true) :
    ∃ i, decode w = .ok i ∧ opcodeMap[i.rowIndex]? = some r := by
  obtain ⟨hmask, hextra⟩ := Bool.and_eq_true_iff.1 h
  replace hmask := eq_of_beq hmask
  have hfield {lo len} := field_of_masked (lo := lo) (len := len) hmask
  simp only [opcodeMap, List.mem_cons, List.not_mem_nil, or_false] at hr
  obtain rfl | rfl | rfl | rfl | rfl | rfl | rfl | rfl | rfl := hr
  · exact ⟨.i2cStart, decode_of_isWord ⟨hfield rfl, hfield rfl⟩, rfl⟩
  · exact ⟨.i2cStop, decode_of_isWord ⟨hfield rfl, hfield rfl⟩, rfl⟩
  · exact ⟨.i2cWbit _, decode_of_isWord ⟨hfield rfl, hfield rfl, rfl⟩, rfl⟩
  · exact ⟨.i2cRbit, decode_of_isWord ⟨hfield rfl, hfield rfl⟩, rfl⟩
  · exact ⟨.i2cWbyte _, decode_of_isWord ⟨hfield rfl, hfield rfl, rfl⟩, rfl⟩
  · exact ⟨.lcdPulse _ _, decode_of_isWord ⟨hfield rfl, hfield rfl, hfield rfl, rfl, rfl⟩, rfl⟩
  · exact ⟨.lcdCmd _, decode_of_isWord ⟨hfield rfl, hfield rfl, getLsbD_of_masked hmask rfl, rfl⟩, rfl⟩
  · exact ⟨.lcdData _, decode_of_isWord ⟨hfield rfl, hfield rfl, getLsbD_of_masked hmask rfl, rfl⟩, rfl⟩
  · have hclass : (DelayClass.ofCode? (Word.field w 0 3)).isSome = true :=
      (DelayClass.isSome_ofCode? _).trans hextra
    obtain ⟨k, hk⟩ := Option.isSome_iff_exists.1 hclass
    exact ⟨.wait k, decode_of_isWord ⟨hfield rfl, hfield rfl, (DelayClass.ofCode?_eq_some_iff _ _).1 hk⟩, rfl⟩

/-- The extra constraint of the WAIT row holds of every WAIT, and no other row has one. -/
theorem rowConstraint_encode {i : Instr} {r : OpcodeRow} (hr : opcodeMap[i.rowIndex]? = some r) :
    (r.pattern != 0x8000#16 || decide ((Word.field (encode i) 0 3).toNat ≤ 4)) = true := by
  cases i with
  | wait k =>
    obtain rfl := Option.some.inj hr
    cases k <;> rfl
  | _ =>
    obtain rfl := Option.some.inj hr
    rfl

theorem masked_encode (i : Instr) : Laws.F.Statement i := by
  cases i with
  | i2cStart => exact Laws.F.i2cStart
  | i2cStop => exact Laws.F.i2cStop
  | i2cWbit b => exact Laws.F.i2cWbit b
  | i2cRbit => exact Laws.F.i2cRbit
  | i2cWbyte d => exact Laws.F.i2cWbyte d
  | lcdPulse n rs => exact Laws.F.lcdPulse n rs
  | lcdCmd d => exact Laws.F.lcdCmd d
  | lcdData d => exact Laws.F.lcdData d
  | wait k => exact Laws.F.wait k

/-- The word of an operation selects the operation's own row. -/
theorem selects_encode (i : Instr) : ∃ r, opcodeMap[i.rowIndex]? = some r ∧ r.selects (encode i) = true := by
  obtain ⟨r, hr⟩ : ∃ r, opcodeMap[i.rowIndex]? = some r := by cases i <;> exact ⟨_, rfl⟩
  have hmask := masked_encode i
  simp only [Laws.F.Statement, hr, Option.map_some, Option.some.injEq] at hmask
  exact ⟨r, hr, Bool.and_eq_true_iff.2 ⟨beq_iff_eq.2 hmask, rowConstraint_encode hr⟩⟩

/-- Settles O3: a row selects the words of its operations and no others. -/
theorem legalWordsMatchOneRow : Obligations.LegalWordsMatchOneRow := by
  have hown {w : Word} {i : Instr} (h : decode w = .ok i) :
      ∃ r, opcodeMap[i.rowIndex]? = some r ∧ r.selects w = true := encode_of_decode h ▸ selects_encode i
  refine ⟨fun w => (legal_iff w).trans ⟨?_, ?_⟩, fun w r hr r' hr' h h' => ?_, fun w i => hown⟩
  · rintro ⟨i, hi⟩
    obtain ⟨r, hr, hw⟩ := hown hi
    exact ⟨r, List.mem_of_getElem? hr, hw⟩
  · rintro ⟨r, hr, hw⟩
    obtain ⟨i, hi, -⟩ := decode_of_selects hr hw
    exact ⟨i, hi⟩
  · obtain ⟨i, hi, hrow⟩ := decode_of_selects hr h
    obtain ⟨i', hi', hrow'⟩ := decode_of_selects hr' h'
    obtain rfl := Except.ok.inj (hi.symm.trans hi')
    exact Option.some.inj (hrow.symm.trans hrow')

/-! The illegal words (30_encoding R64). -/

theorem unlessReserved_eq_error_iff (clear : Bool) (i : Instr) (r : IllegalReason) :
    unlessReserved clear i = .error r ↔ clear = false ∧ r = .reservedBitSet := by
  cases clear <;> simp [unlessReserved, eq_comm]

/-- The opcodes that belong to no operation (30_encoding R61). -/
theorem opcode_eq_zero_or_ge_nine {op : BitVec 4}
    (h : ¬op = 1 ∧ ¬op = 2 ∧ ¬op = 3 ∧ ¬op = 4 ∧ ¬op = 5 ∧ ¬op = 6 ∧ ¬op = 7 ∧ ¬op = 8) :
    op = 0 ∨ 9 ≤ op.toNat := by
  revert op
  decide

/-- Settles O5, by the opcode: a word of the opcodes 1 to 7 can be refused for its reserved bits alone, a WAIT for its class too,
and no other opcode has a format. -/
theorem illegalWordsNamed : Obligations.IllegalWordsNamed := by
  intro w
  simp only [decode]
  generalize Word.field w 12 4 = op, hcode : Word.field w 0 3 = code
  split_ifs with h1 h2 h3 h4 h5 h6 h7 hrs h8 hclear
  · simp [h1, unlessReserved_eq_error_iff]
  · simp [h2, unlessReserved_eq_error_iff]
  · simp [h3, unlessReserved_eq_error_iff]
  · simp [h4, unlessReserved_eq_error_iff]
  · simp [h5, unlessReserved_eq_error_iff]
  · simp [h6, unlessReserved_eq_error_iff, imp_iff_not_or]
  · simp [h7, unlessReserved_eq_error_iff]
  · simp [h7, unlessReserved_eq_error_iff]
  · replace hclear : ¬ Word.field w 3 9 = 0#9 := hclear
    simp [h8, hclear]
  · have hclass := DelayClass.isSome_ofCode? code
    cases hk : DelayClass.ofCode? code with
    | some k =>
      have hle : code.toNat ≤ 4 := by simpa [hk] using hclass
      simp [h8, not_not.1 hclear, hle, Nat.lt_succ_iff]
    | none =>
      have hgt : 5 ≤ code.toNat := by simpa [hk, Nat.succ_le_iff] using hclass
      simp [h8, not_not.1 hclear, hgt]
  · have hrest := opcode_eq_zero_or_ge_nine ⟨h1, h2, h3, h4, h5, h6, h7, h8⟩
    exact ⟨iff_of_true rfl hrest, iff_of_false (by simp) (by tauto), iff_of_false (by simp) (by tauto)⟩

/-! How many words are legal (30_encoding R63). -/

/-- The values of an operand of `n` bits. -/
def allBitVecs (n : Nat) : List (BitVec n) := (List.finRange (2 ^ n)).map BitVec.ofFin

theorem length_allBitVecs (n : Nat) : (allBitVecs n).length = 2 ^ n := by simp [allBitVecs]

theorem mem_allBitVecs {n : Nat} (v : BitVec n) : v ∈ allBitVecs n :=
  List.mem_map.2 ⟨v.toFin, List.mem_finRange _, rfl⟩

theorem nodup_allBitVecs (n : Nat) : (allBitVecs n).Nodup :=
  (List.nodup_finRange _).map fun _ _ h => congrArg BitVec.toFin h

/-- Every operation, with every operand at every value. -/
def allInstrs : List Instr :=
  [.i2cStart, .i2cStop, .i2cWbit false, .i2cWbit true, .i2cRbit, .wait .bit, .wait .settle, .wait .cmd, .wait .clear,
    .wait .poweron] ++ ((allBitVecs 8).map .i2cWbyte ++ ((allBitVecs 4).map (.lcdPulse · false) ++
    ((allBitVecs 4).map (.lcdPulse · true) ++ ((allBitVecs 8).map .lcdCmd ++ (allBitVecs 8).map .lcdData))))

theorem length_allInstrs : allInstrs.length = 810 := by
  simp [allInstrs, length_allBitVecs]

theorem mem_allInstrs (i : Instr) : i ∈ allInstrs := by
  cases i with
  | i2cWbit b => cases b <;> simp [allInstrs]
  | lcdPulse n rs => cases rs <;> simp [allInstrs, mem_allBitVecs]
  | wait k => cases k <;> simp [allInstrs]
  | _ => simp [allInstrs, mem_allBitVecs]

theorem nodup_allInstrs : allInstrs.Nodup := by
  have hmap {n : Nat} {f : BitVec n → Instr} (hf : ∀ v v', f v = f v' → v = v') : ((allBitVecs n).map f).Nodup :=
    (nodup_allBitVecs n).map hf
  simp only [allInstrs, List.nodup_append']
  refine ⟨by decide, ⟨hmap ?_, ⟨hmap ?_, ⟨hmap ?_, ⟨hmap ?_, hmap ?_, ?_⟩, ?_⟩, ?_⟩, ?_⟩, ?_⟩ <;>
    simp [List.disjoint_left]

theorem Instr.code_injective : Function.Injective Instr.code := fun i j h => by
  have hword : encode i = encode j := BitVec.eq_of_toNat_eq (by rw [toNat_encode, toNat_encode, h])
  exact Except.ok.inj ((decode_encode i).symm.trans ((congrArg decode hword).trans (decode_encode j)))

theorem Instr.code_lt (i : Instr) : i.code < 65536 := toNat_encode i ▸ (encode i).isLt

/-- The legal words below 65536 are the numbers of the word column, each once. -/
theorem filter_legal_perm :
    ((List.range 65536).filter fun n => legal (BitVec.ofNat 16 n)).Perm (allInstrs.map Instr.code) := by
  refine (List.perm_ext_iff_of_nodup (List.nodup_range.filter _) (nodup_allInstrs.map Instr.code_injective)).2 fun n => ?_
  rw [List.mem_filter, List.mem_range, legal_iff, List.mem_map]
  constructor
  · rintro ⟨hn, i, hi⟩
    have hcode : n % 65536 = i.code := (decode_eq_ok_iff_code _ i).1 hi
    exact ⟨i, mem_allInstrs i, by omega⟩
  · rintro ⟨i, -, rfl⟩
    have hmod : (BitVec.ofNat 16 i.code).toNat = i.code := Nat.mod_eq_of_lt (Instr.code_lt i)
    exact ⟨Instr.code_lt i, i, (decode_eq_ok_iff_code _ i).2 hmod⟩

/-- Settles O4: the legal words correspond one to one to the operations, which are listed. -/
theorem legalWordCount : Obligations.LegalWordCount := by
  unfold Obligations.LegalWordCount
  rw [filter_legal_perm.length_eq, List.length_map, length_allInstrs]

/-- Settles O1: each word is decoded by evaluation. -/
theorem sampleWordsDecode : Obligations.SampleWordsDecode :=
  ⟨rfl, rfl, rfl, rfl, rfl, rfl, rfl, rfl, rfl, rfl, rfl, rfl⟩

end Sys2Proof
end

section
/-! PROOFS. What each kind of step keeps: the single fields of the state, then the invariant of the block, and which steps answer
no next state. -/

namespace Sys2Proof.Machine

open Sys2Proof.Safety

/-! The accept (10_state R34). -/

/-- Settles O6: the accept of the word, the state after taking it written out. -/
theorem stepRunsDecodedOperation : Obligations.StepRunsDecodedOperation := by
  intro s w rest i h hready hs hd
  obtain ⟨hb, hr⟩ := (State.ready_iff s).1 hready
  rw [step_of_legal h hb hr hs hd, State.tick_takeWord hs]

theorem State.makeReady_resetNow (s : State) : s.makeReady.resetNow = false := by
  rw [State.resetNow, State.makeReady_resetIn]
  cases h : s.resetNow with
  | true => rfl
  | false => exact h

/-- A block that is ready, with nothing left to do and no reset at this step, needs no making ready. -/
theorem State.makeReady_of_ready {s : State} (hready : s.ready = true) (h : s.resetNow = false) (hq : s.seq = []) :
    s.makeReady = s := by
  obtain ⟨hb, hr⟩ := (State.ready_iff s).1 hready
  have hin : s.makeReady.resetIn = s.resetIn := by simp [h]
  calc s.makeReady = { s with seq := [], busy := false, refusal := none, resetIn := s.makeReady.resetIn } := rfl
    _ = s := by rw [hin, ← hq, ← hb, ← hr]

/-- Settles O7: the placed word stands at the head of the stream of a ready block. -/
theorem placedWordRunsNext : Obligations.PlacedWordRunsNext := by
  intro s nbits w i hw
  have hd : decode (BitVec.ofNat 16 (w % 2 ^ nbits)) = .ok i := by
    unfold decodeTableWord at hw
    split at hw
    next j hj => rw [hj, Option.some.inj hw]
    next => cases hw
  refine ⟨?_, (State.ready_iff _).2 ⟨rfl, rfl⟩, State.makeReady_of_ready⟩
  exact step_of_legal (s := s.withFetchWord nbits w) s.makeReady_resetNow rfl rfl rfl hd

/-- Settles O59: an operation is accepted only by a ready block. -/
theorem execHeldChangesNothing : Obligations.ExecHeldChangesNothing := fun _ i h => exec_of_not_ready h i

/-- Settles O39: an accept loads the expansion or changes nothing. -/
theorem acceptFrame : Obligations.AcceptFrame := by
  intro i s t h
  obtain ⟨-, rfl⟩ | ⟨-, rfl⟩ := exec_cases h <;> rfl

/-! A step that is no reset is the micro-step of a busy block, or leaves alone whatever only micro-steps and resets move. -/

/-- What a step of a block that is not busy leaves alone (60_exceptions R175). -/
structure SameProgress (s t : State) : Prop where
  latches : t.latches = s.latches
  result : t.result = s.result
  trace : t.trace = s.trace
  config : t.config = s.config
  /-- Only a refusal writes the mark, and it loads no operation. -/
  mark : t.refusal = s.refusal ∨ t.busy = s.busy ∧ t.seq = s.seq

/-- The event a micro-action makes in a state (10_state R27). -/
def State.eventOf (s : State) : MicroAction → Event
  | .setScl v => .setScl v
  | .setSda v => .setSda v
  | .delay k => .delay k
  | .sample => .sample (s.sdaOut && s.slaveSda)

theorem State.eventOf_action (s : State) (m : MicroAction) : (s.eventOf m).action = m := by
  cases m <;> rfl

/-- What the micro-step of `m` leaves, with `rest` still to do (10_state R35). -/
structure MicroStepped (m : MicroAction) (rest : List MicroAction) (s t : State) : Prop where
  seq : t.seq = rest
  latches : t.latches = (s.eventOf m).latchesAfter s.latches
  trace : t.trace = s.trace ++ [s.eventOf m]
  samples : t.samples = (State.perform m s).samples
  config : t.config = s.config
  refusal : t.refusal = s.refusal
  stream : t.stream = s.stream
  last : rest = [] → t.busy = false ∧ t.result = packResult t.samples
  within : rest ≠ [] → t.busy = true ∧ t.result = s.result

theorem microStepped {s t : State} {m : MicroAction} {rest : List MicroAction} (h : step s = .next t)
    (h0 : s.resetNow = false) (hb : s.busy = true) (hq : s.seq = m :: rest) : MicroStepped m rest s t := by
  by_cases hrest : rest = []
  · subst hrest
    obtain rfl := Host.Outcome.next.inj ((step_last h0 hb hq).symm.trans h)
    cases m <;> exact ⟨rfl, rfl, rfl, rfl, rfl, rfl, rfl, fun _ => ⟨rfl, rfl⟩, fun hne => absurd rfl hne⟩
  · obtain rfl := Host.Outcome.next.inj ((step_within h0 hb hq hrest).symm.trans h)
    cases m <;> exact ⟨rfl, rfl, rfl, rfl, rfl, rfl, rfl, fun hnil => absurd hnil hrest, fun _ => ⟨hb, rfl⟩⟩

/-- The two kinds of step that are no reset. -/
theorem step_quiet_cases {s t : State} (h : step s = .next t) (h0 : s.resetNow = false) :
    (s.busy = true ∧ ∃ m rest, s.seq = m :: rest ∧ MicroStepped m rest s t) ∨ (s.busy = false ∧ SameProgress s t) := by
  obtain ⟨hreset, -⟩ | ⟨-, hb, m, rest, hq, -⟩ | ⟨-, hb, -, -, rfl⟩ | ⟨-, hb, -, -, rfl⟩ |
    ⟨-, hb, -, w, rest, i, -, -, rfl⟩ | ⟨-, hb, -, w, rest, r, -, -, rfl⟩ := step_cases h
  · exact absurd (hreset.symm.trans h0) Bool.noConfusion
  · exact .inl ⟨hb, m, rest, hq, microStepped h h0 hb hq⟩
  · exact .inr ⟨hb, rfl, rfl, rfl, rfl, .inl rfl⟩
  · exact .inr ⟨hb, rfl, rfl, rfl, rfl, .inl rfl⟩
  · exact .inr ⟨hb, rfl, rfl, rfl, rfl, .inl rfl⟩
  · exact .inr ⟨hb, rfl, rfl, rfl, rfl, .inr ⟨rfl, rfl⟩⟩

/-! The statements about single fields. -/

/-- Settles O33: of the steps that are no reset only a last micro-step, which completes its operation, writes RESULT. -/
theorem resultWrittenAtCompletion : Obligations.ResultWrittenAtCompletion := by
  intro s t h h0
  obtain ⟨hb, m, rest, -, hmicro⟩ | ⟨-, hsame⟩ := step_quiet_cases h h0
  · by_cases hrest : rest = []
    · exact .inl ⟨hb, hmicro.last hrest⟩
    · exact .inr (hmicro.within hrest).2
  · exact .inr hsame.result

/-- Settles O36: a micro-step moves the latch its micro-action writes, if any; no other step moves one. -/
theorem onlyLatchWritesMoveLatches : Obligations.OnlyLatchWritesMoveLatches := by
  intro s t h h0
  obtain ⟨hb, m, rest, hq, hmicro⟩ | ⟨-, hsame⟩ := step_quiet_cases h h0
  · obtain ⟨hscl, hsda⟩ := Prod.ext_iff.1 hmicro.latches
    cases m with
    | setScl v => exact ⟨.inr ⟨v, rest, hb, hq, hscl⟩, .inl hsda⟩
    | setSda v => exact ⟨.inl hscl, .inr ⟨v, rest, hb, hq, hsda⟩⟩
    | delay k => exact ⟨.inl hscl, .inl hsda⟩
    | sample => exact ⟨.inl hscl, .inl hsda⟩
  · obtain ⟨hscl, hsda⟩ := Prod.ext_iff.1 hsame.latches
    exact ⟨.inl hscl, .inl hsda⟩

/-- Settles O37: a micro-step makes the event of its micro-action, and no other step makes one. -/
theorem traceGrowsWithMicroActions : Obligations.TraceGrowsWithMicroActions := by
  intro s t h h0
  obtain ⟨hb, m, rest, hq, hmicro⟩ | ⟨hb, hsame⟩ := step_quiet_cases h h0
  · exact .inr ⟨hb, s.eventOf m, rest, by rw [s.eventOf_action, hq], hmicro.seq, hmicro.trace⟩
  · exact .inl ⟨hb, hsame.trace⟩

/-- Settles O38: a reset keeps the configuration, and so does each of the two other kinds of step. -/
theorem configurationIsConstant : Obligations.ConfigurationIsConstant := by
  intro s t h
  cases h0 : s.resetNow with
  | true =>
    rw [eq_doReset_of_step h0 h]
    rfl
  | false =>
    obtain ⟨-, m, rest, -, hmicro⟩ | ⟨-, hsame⟩ := step_quiet_cases h h0
    · exact hmicro.config
    · exact hsame.config

/-- Settles O47: a micro-step takes no word and keeps the mark; any other step makes no event. -/
theorem oneEventPerStep : Obligations.OneEventPerStep := by
  intro s t h h0
  obtain ⟨hb, m, rest, -, hmicro⟩ | ⟨hb, hsame⟩ := step_quiet_cases h h0
  · exact ⟨fun hne => absurd hmicro.stream hne, fun _ => ⟨hmicro.stream, hmicro.refusal, hb⟩,
      fun hne => absurd hmicro.refusal hne⟩
  · exact ⟨fun _ => ⟨hsame.trace, hb⟩, fun hne => absurd hsame.trace hne,
      fun hne => ⟨hsame.trace, hsame.mark.resolve_left hne⟩⟩

/-! Reset (70_reset_and_hazards R191) and the hold of a refused block (60_exceptions R172). -/

/-- Settles O43: either order of the two writes releases both latches. -/
theorem resetOverridesAndDiscards : Obligations.ResetOverridesAndDiscards := by
  intro s h0
  refine ⟨s.tick.doReset, step_of_reset h0, rfl, rfl, rfl, ?_⟩
  rw [State.doReset_cutTrace, State.tick_trace, List.drop_left, State.resetWrites]
  split
  · exact ⟨.inl rfl, rfl⟩
  · exact ⟨.inr rfl, rfl⟩

/-- No reset is to come exactly if none is asserted now and none is left in the schedule after this step. -/
theorem no_reset_iff (s : State) : (∀ b ∈ s.resetIn, b = false) ↔ s.resetNow = false ∧ s.tick.resetAhead = false := by
  cases hin : s.resetIn <;> simp [State.resetNow, State.resetAhead, hin]

/-- A refused block with no reset to come stops, by the name of its reason. -/
theorem step_of_refused_forever {s : State} {r : IllegalReason} (hb : s.busy = false) (hr : s.refusal = some r)
    (hquiet : ∀ b ∈ s.resetIn, b = false) : step s = .refused (.illegalWord r) := by
  obtain ⟨h0, hahead⟩ := (no_reset_iff s).1 hquiet
  exact (step_of_refused h0 hb hr).trans (if_neg (Bool.eq_false_iff.1 hahead))

/-- A refused block waits for the reset `n` steps ahead, and nothing but the schedule moves until then. -/
theorem run_refused_to_reset (n : Nat) {s : State} {later : List Bool} (hb : s.busy = false) (href : s.refused = true)
    (hin : s.resetIn = List.replicate n false ++ true :: later) :
    run (n + 1) s = .next (State.doReset { s with resetIn := later }) := by
  obtain ⟨r, hr⟩ := Option.isSome_iff_exists.1 href
  induction n generalizing s with
  | zero =>
    have h0 : s.resetNow = true := by simp [State.resetNow, hin]
    rw [run_succ _ _ _ (step_of_reset h0), State.tick, hin]
    rfl
  | succ n ih =>
    have h0 : s.resetNow = false := by simp [State.resetNow, hin, List.replicate_succ]
    have htail : s.tick.resetIn = List.replicate n false ++ true :: later := by simp [hin, List.replicate_succ]
    have hahead : s.tick.resetAhead = true := by rw [State.resetAhead, htail]; simp
    have hstep : step s = .next s.tick := (step_of_refused h0 hb hr).trans (if_pos hahead)
    rw [run_succ _ _ _ hstep]
    exact ih hb href htail hr

/-- Settles O41: the wait ends in the reset state; with no reset to come there is no step. -/
theorem refusedBlockWaitsForReset : Obligations.RefusedBlockWaitsForReset := by
  refine ⟨fun n s later hb href hin => ?_, fun s r => step_of_refused_forever⟩
  exact ⟨_, run_refused_to_reset n hb href hin, rfl, rfl, rfl, rfl, rfl, rfl, rfl, State.doReset_status _, rfl, rfl, rfl, rfl⟩

/-! The invariant. -/

/-- Settles O45: nothing is in progress, nothing was sampled, and the trace is empty. -/
theorem resetMeetsInvariant : Obligations.ResetMeetsInvariant where
  busy_iff_work := by simp [State.reset]
  busy_not_refused := fun h => Bool.noConfusion h
  in_progress := fun h => Bool.noConfusion h
  samples_at_most_six := Nat.zero_le 6
  result_packed := ⟨[], Nat.zero_le 6, rfl⟩
  idle_result := fun _ => rfl
  latches_follow_trace := rfl

/-- A reset leaves the invariant whatever it cut. -/
theorem inv_doReset (s : State) : Inv s.doReset where
  busy_iff_work := by simp
  busy_not_refused := fun _ => rfl
  in_progress := fun h => Bool.noConfusion h
  samples_at_most_six := Nat.zero_le 6
  result_packed := ⟨[], Nat.zero_le 6, packResult_nil.symm⟩
  idle_result := fun _ => packResult_nil.symm
  latches_follow_trace := rfl

/-- The inputs play no part in the invariant. -/
theorem inv_tick {s : State} (h : Inv s) : Inv s.tick :=
  ⟨h.busy_iff_work, h.busy_not_refused, h.in_progress, h.samples_at_most_six, h.result_packed, h.idle_result,
    h.latches_follow_trace⟩

theorem inv_takeWord {s : State} (h : Inv s) : Inv s.takeWord :=
  ⟨h.busy_iff_work, h.busy_not_refused, h.in_progress, h.samples_at_most_six, h.result_packed, h.idle_result,
    h.latches_follow_trace⟩

theorem inv_refuse {s : State} (r : IllegalReason) (hb : s.busy = false) (h : Inv s) : Inv (s.refuse r) :=
  ⟨h.busy_iff_work, fun hbusy => absurd (hb.symm.trans hbusy) Bool.noConfusion, h.in_progress, h.samples_at_most_six,
    h.result_packed, h.idle_result, h.latches_follow_trace⟩

/-- At the accept all of the expansion is left and nothing of it done. -/
theorem inv_load {s : State} (i : Instr) (hr : s.refusal = none) (h : Inv s) : Inv (s.load (expand s.config i)) where
  busy_iff_work := iff_of_true rfl (expand_ne_nil s.config i)
  busy_not_refused := fun _ => hr
  in_progress := fun _ => ⟨i, [], s.trace, rfl, (List.append_nil _).symm, rfl⟩
  samples_at_most_six := Nat.zero_le 6
  result_packed := h.result_packed
  idle_result := fun h => Bool.noConfusion h
  latches_follow_trace := h.latches_follow_trace

/-- Levels past the samples of a sequence are not looked at. -/
theorem eventsOf_append_levels (ms : List MicroAction) (levels more : List Bit) (h : levels.length = samplesIn ms) :
    eventsOf ms (levels ++ more) = eventsOf ms levels := by
  induction ms generalizing levels with
  | nil => rfl
  | cons m ms ih =>
    cases m with
    | sample =>
      obtain ⟨b, levels, rfl⟩ := List.exists_cons_of_length_eq_add_one (h.trans (samplesIn_sample ms))
      exact congrArg (Event.sample b :: ·) (ih levels (by simpa using h))
    | _ => exact congrArg (_ :: ·) (ih levels (by simpa using h))

/-- One more micro-action is one more event, and one more sample where it is a sample. -/
theorem done_perform (m : MicroAction) (s : State) (done : List MicroAction) (h : s.samples.length = samplesIn done) :
    eventsOf (done ++ [m]) (State.perform m s).samples = eventsOf done s.samples ++ [s.eventOf m] ∧
    (State.perform m s).samples.length = samplesIn (done ++ [m]) := by
  rw [eventsOf_append, samplesIn_append]
  cases m with
  | sample =>
    refine ⟨?_, by simp [h]⟩
    rw [State.perform_sample, State.sampleSda_samples, eventsOf_append_levels done _ _ h, ← h, List.drop_left]
    rfl
  | _ => exact ⟨rfl, h⟩

/-- The micro-step moves one micro-action from what is left to what is done. -/
theorem inv_microStepped {s t : State} {m : MicroAction} {rest : List MicroAction} (h : Inv s) (hb : s.busy = true)
    (hq : s.seq = m :: rest) (hm : MicroStepped m rest s t) : Inv t := by
  obtain ⟨i, done, before, hexpand, htrace, hsamples⟩ := h.in_progress hb
  obtain ⟨hevents, hlength⟩ := done_perform m s done hsamples
  rw [← hm.samples] at hevents hlength
  have hexpand' : expand s.config i = (done ++ [m]) ++ rest := by rw [hexpand, hq, List.append_cons]
  have hsix : t.samples.length ≤ 6 := by
    have hcount := samplesIn_expand s.config i
    rw [hexpand', samplesIn_append, ← hlength] at hcount
    have := sampleCount_le_six i
    omega
  have hbusy : t.busy = true ↔ rest ≠ [] := by
    by_cases hrest : rest = []
    · simp [hrest, (hm.last hrest).1]
    · simp [hrest, (hm.within hrest).1]
  refine
    { busy_iff_work := by rw [hm.seq, hbusy]
      busy_not_refused := fun _ => hm.refusal.trans (h.busy_not_refused hb)
      in_progress := fun _ => ⟨i, done ++ [m], before, by rw [hm.config, hexpand', hm.seq], ?_, hlength⟩
      samples_at_most_six := hsix
      result_packed := ?_
      idle_result := fun hidle => (hm.last ?_).2
      latches_follow_trace := ?_ }
  · rw [hm.trace, htrace, hevents, List.append_assoc]
  · by_cases hrest : rest = []
    · exact ⟨t.samples, hsix, (hm.last hrest).2⟩
    · rw [(hm.within hrest).2]
      exact h.result_packed
  · by_contra hrest
    exact Bool.noConfusion (hidle.symm.trans (hbusy.2 hrest))
  · rw [hm.latches, hm.trace, latchesAfter_append, ← h.latches_follow_trace]
    rfl

/-- Settles O44, by the cases of a step: a reset, a micro-step, a step of the inputs alone, an accept, a refusal. -/
theorem stepKeepsInvariant : Obligations.StepKeepsInvariant := by
  intro s t h hstep
  obtain ⟨-, rfl⟩ | ⟨h0, hb, m, rest, hq, -⟩ | ⟨-, -, -, -, rfl⟩ | ⟨-, -, -, -, rfl⟩ |
    ⟨-, -, hr, w, rest, i, -, -, rfl⟩ | ⟨-, hb, -, w, rest, r, -, -, rfl⟩ := step_cases hstep
  · exact inv_doReset s.tick
  · exact inv_microStepped h hb hq (microStepped hstep h0 hb hq)
  · exact inv_tick h
  · exact inv_tick h
  · exact inv_load i hr (inv_takeWord (inv_tick h))
  · exact inv_refuse r hb (inv_takeWord (inv_tick h))

/-! The outcomes (60_exceptions R170, R171). -/

/-- Under the invariant a step that answers no next state is the stop of a refused block with no reset to come. -/
theorem step_next_or_refused {s : State} (h : Inv s) :
    (∃ t, step s = .next t) ∨
    ∃ r, step s = .refused (.illegalWord r) ∧ s.refusal = some r ∧ ∀ b ∈ s.resetIn, b = false := by
  cases h0 : s.resetNow with
  | true => exact .inl ⟨_, step_of_reset h0⟩
  | false =>
    cases hb : s.busy with
    | true =>
      obtain ⟨m, rest, hq⟩ := List.exists_cons_of_ne_nil (h.busy_iff_work.1 hb)
      exact .inl ⟨_, (step_of_busy h0 hb).trans (State.microStep_of_cons (s := s.tick) hq)⟩
    | false =>
      cases hr : s.refusal with
      | some r =>
        cases hahead : s.tick.resetAhead with
        | true => exact .inl ⟨_, (step_of_refused h0 hb hr).trans (if_pos hahead)⟩
        | false =>
          have hquiet := (no_reset_iff s).2 ⟨h0, hahead⟩
          exact .inr ⟨r, step_of_refused_forever hb hr hquiet, rfl, hquiet⟩
      | none =>
        cases hs : s.stream with
        | nil => exact .inl ⟨_, step_of_idle h0 hb hr hs⟩
        | cons w rest =>
          obtain ⟨t, ht, -⟩ := step_takes_word ((State.ready_iff s).2 ⟨hb, hr⟩) h0 hs
          exact .inl ⟨t, ht⟩

/-- Settles O46: the sequencer of a busy block is not empty, and a refused block is not busy. -/
theorem noFaultAndOneRefusal : Obligations.NoFaultAndOneRefusal := by
  intro s h
  have houtcome := step_next_or_refused h
  refine ⟨fun f hf => ?_, fun r => ⟨fun hr => ?_, ?_⟩⟩
  · obtain ⟨t, ht⟩ | ⟨r, hr, -⟩ := houtcome
    · cases hf.symm.trans ht
    · cases hf.symm.trans hr
  · obtain ⟨t, ht⟩ | ⟨reason, hstop, hmark, hquiet⟩ := houtcome
    · cases hr.symm.trans ht
    · exact ⟨reason, Host.Outcome.refused.inj (hr.symm.trans hstop), hmark, hquiet⟩
  · rintro ⟨reason, rfl, hmark, hquiet⟩
    have hb : s.busy = false := Bool.eq_false_iff.2 fun hb => by simp [h.busy_not_refused hb] at hmark
    exact step_of_refused_forever hb hmark hquiet

end Sys2Proof.Machine
end

section
/-! PROOFS. The expansions: their bytes, delays and least times, and the runs of whole operations and of streams of words. -/

namespace Sys2Proof.Machine

open Sys2Proof.Safety

/-- Settles O32: every field of RESULT by its place. -/
theorem resultFields : Obligations.ResultFields := fun _ h => resultSays_packResult h

/-! The transport bytes of a send (42_lcd_transport R133). -/

theorem addrByte_eq_shiftLeft (c : Config) : addrByte c = c.devAddr7.setWidth 8 <<< 1 := by
  rw [addrByte]
  generalize c.devAddr7 = a
  revert a
  decide

theorem highNibble_shiftLeft (d : Byte) : (highNibble d).setWidth 8 <<< 4 = d &&& 0xF0#8 := by
  revert d
  decide

theorem lowNibble_shiftLeft (d : Byte) : (lowNibble d).setWidth 8 <<< 4 = (d <<< 4) &&& 0xF0#8 := by
  revert d
  decide

/-- Settles O26: each nibble moved up is the operand masked, and an EN not asked for adds nothing. -/
theorem sendBytesClosedForm : Obligations.SendBytesClosedForm := by
  intro c d rs
  have hen : ∀ x : Byte, x ||| (if false = true then enMask c else 0#8) = x := fun x => BitVec.or_zero
  simp only [sendSeq, pulseSeq, tb, highNibble_shiftLeft, lowNibble_shiftLeft, addrByte_eq_shiftLeft, hen, if_true]

/-! How many delays an expansion has (30_encoding R77). -/

/-- The numbers of all delays, BIT delays and SETTLE delays of a micro-sequence. -/
def delayCounts (ms : List MicroAction) : Nat × Nat × Nat :=
  ((delaysIn ms).length, (delaysIn ms).count .bit, (delaysIn ms).count .settle)

theorem delayCounts_append (a b : List MicroAction) : delayCounts (a ++ b) = delayCounts a + delayCounts b := by
  simp [delayCounts, delaysIn_append, List.count_append]

@[simp] theorem delayCounts_wbyteSeq (d : Byte) : delayCounts (wbyteSeq d) = (17, 17, 0) := rfl

theorem delayCounts_pulseSeq (c : Config) (n : Nibble) (rs : Bit) : delayCounts (pulseSeq c n rs) = (58, 56, 2) := by
  simp only [pulseSeq, delayCounts_append, delayCounts_wbyteSeq]
  rfl

theorem delayCounts_sendSeq (c : Config) (d : Byte) (rs : Bit) : delayCounts (sendSeq c d rs) = (116, 112, 4) := by
  rw [sendSeq, delayCounts_append, delayCounts_pulseSeq, delayCounts_pulseSeq]
  rfl

theorem delays_of_counts {ms : List MicroAction} {n k : Nat} (h : delayCounts ms = (n + k, n, k)) :
    (delaysIn ms).length = (delaysIn ms).count .bit + (delaysIn ms).count .settle ∧
    (delaysIn ms).count .bit = n ∧ (delaysIn ms).count .settle = k := by
  simp only [delayCounts, Prod.mk.injEq] at h
  omega

/-- Settles O28: the counts of a byte make those of a pulse, and these those of a send. -/
theorem expansionCounts : Obligations.ExpansionCounts := by
  intro c i
  refine ⟨length_expand c i, samplesIn_expand c i, ?_⟩
  cases i with
  | lcdPulse n rs => exact delays_of_counts (delayCounts_pulseSeq c n rs)
  | lcdCmd d | lcdData d => exact delays_of_counts (delayCounts_sendSeq c d _)
  | wait k => cases k <;> exact ⟨rfl, rfl, rfl⟩
  | _ => exact ⟨rfl, rfl, rfl⟩

/-! Least times (70_reset_and_hazards R207). -/

@[simp] theorem minTime_delay (c : Config) (k : DelayClass) : minTime c [.delay k] = c.duration k := rfl

theorem minTime_startSeq (c : Config) : minTime c startSeq = 2 * c.tBit := by
  simp [minTime, startSeq, MicroAction.minTime, Config.duration, Nat.two_mul]

theorem minTime_stopSeq (c : Config) : minTime c stopSeq = 3 * c.tBit := by
  simp only [minTime, stopSeq, MicroAction.minTime, Config.duration, List.map_cons, List.map_nil, List.sum_cons, List.sum_nil]
  omega

theorem minTime_wbitSeq (c : Config) (b : Bit) : minTime c (wbitSeq b) = 2 * c.tBit := by
  simp [minTime, wbitSeq, MicroAction.minTime, Config.duration, Nat.two_mul]

theorem minTime_rbitSeq (c : Config) : minTime c rbitSeq = c.tBit := by
  simp [minTime, rbitSeq, MicroAction.minTime, Config.duration]

theorem minTime_bits (c : Config) (bits : List Bit) : minTime c (bits.flatMap wbitSeq) = bits.length * (2 * c.tBit) := by
  induction bits with
  | nil => simp [minTime]
  | cons b bits ih => rw [List.flatMap_cons, minTime_append, minTime_wbitSeq, ih, List.length_cons, Nat.add_mul]; omega

theorem minTime_wbyteSeq (c : Config) (d : Byte) : minTime c (wbyteSeq d) = 17 * c.tBit := by
  rw [wbyteSeq, minTime_append, minTime_bits, minTime_rbitSeq]
  simp only [bitsMsbFirst, List.length_cons, List.length_nil]
  omega

theorem minTime_pulseSeq (c : Config) (n : Nibble) (rs : Bit) :
    minTime c (pulseSeq c n rs) = 56 * c.tBit + 2 * c.tSettle := by
  simp only [pulseSeq, minTime_append, minTime_startSeq, minTime_wbyteSeq, minTime_stopSeq, minTime_delay, Config.duration]
  omega

theorem minTime_sendSeq (c : Config) (d : Byte) (rs : Bit) :
    minTime c (sendSeq c d rs) = 112 * c.tBit + 4 * c.tSettle := by
  rw [sendSeq, minTime_append, minTime_pulseSeq, minTime_pulseSeq]
  omega

theorem minTime_expand (c : Config) (i : Instr) : minTime c (expand c i) = minDuration c i := by
  cases i with
  | i2cStart => exact minTime_startSeq c
  | i2cStop => exact minTime_stopSeq c
  | i2cWbit b => exact minTime_wbitSeq c b
  | i2cRbit => exact minTime_rbitSeq c
  | i2cWbyte d => exact minTime_wbyteSeq c d
  | lcdPulse n rs => exact minTime_pulseSeq c n rs
  | lcdCmd d | lcdData d => exact minTime_sendSeq c d _
  | wait k => exact minTime_delay c k

/-- Settles O56: from the end of the enable-set byte to that of the enable-clear byte there is one settle delay and one byte. -/
theorem enableHighTime : Obligations.EnableHighTime := by
  intro c n rs
  refine ⟨startSeq ++ wbyteSeq (addrByte c), _, [.delay .settle] ++ stopSeq, ?_, rfl, ?_⟩
  · simp only [pulseSeq, List.append_assoc]
  · rw [minTime_append, minTime_wbyteSeq, minTime_delay, Config.duration]

theorem minDurationAll_lcdCommandOps (c : Config) (d : Byte) :
    minDurationAll c (lcdCommandOps d) = 112 * c.tBit + 4 * c.tSettle + c.tCmd := rfl

theorem minDurationAll_lcdClearOps (c : Config) :
    minDurationAll c lcdClearOps = 112 * c.tBit + 4 * c.tSettle + c.tClear := rfl

theorem minDurationAll_lcdInitOps (c : Config) :
    minDurationAll c lcdInitOps = c.tPoweron + 672 * c.tBit + 24 * c.tSettle + 5 * c.tCmd + c.tClear := by
  have hpoweron : minDurationAll c [.wait .poweron] = c.tPoweron := rfl
  simp only [lcdInitOps, minDurationAll_append, minDurationAll_lcdCommandOps, minDurationAll_lcdClearOps, hpoweron]
  omega

theorem minDurationAll_lcdPrintOps (c : Config) (s : List Byte) :
    minDurationAll c (lcdPrintOps s) = s.length * (112 * c.tBit + 4 * c.tSettle) := by
  simp [minDurationAll, lcdPrintOps, Function.comp_def, minDuration]

/-- Settles O55: the table by operation, summed over the operations of each pseudo-instruction. -/
theorem minimumDurations : Obligations.MinimumDurations := by
  intro c
  refine ⟨minTime_expand c, minDurationAll_lcdCommandOps c, minDurationAll_lcdClearOps c, minDurationAll_lcdInitOps c,
    minDurationAll_lcdPrintOps c, fun ⟨hcmd, hsend⟩ d => ⟨?_, hsend⟩⟩
  rw [minDurationAll_lcdCommandOps, minDurationAll_lcdClearOps]
  omega

theorem highNibble_append (h l : Nibble) : highNibble (h ++ l) = h := BitVec.extractLsb'_append_eq_left

theorem lowNibble_append (h l : Nibble) : lowNibble (h ++ l) = l := BitVec.extractLsb'_append_eq_right

/-- A command line is the two pulses of its byte's nibbles and the wait. -/
theorem flatMap_expand_lcdCommandOps (c : Config) (h l : Nibble) :
    (lcdCommandOps (h ++ l)).flatMap (expand c) = pulseSeq c h false ++ pulseSeq c l false ++ [.delay .cmd] := by
  simp [lcdCommandOps, expand, sendSeq, waitSeq, highNibble_append, lowNibble_append]

theorem flatMap_expand_lcdClearOps (c : Config) :
    lcdClearOps.flatMap (expand c) = pulseSeq c 0#4 false ++ pulseSeq c 1#4 false ++ [.delay .clear] := by
  have hbyte : (0x01#8 : Byte) = 0#4 ++ 1#4 := rfl
  rw [lcdClearOps, hbyte]
  simp only [List.flatMap_cons, List.flatMap_nil, expand, sendSeq, waitSeq, highNibble_append, lowNibble_append,
    List.append_assoc, List.append_nil]

/-- Settles O49: each command is the two pulses of its nibbles. -/
theorem initNibbleStream : Obligations.InitNibbleStream := by
  intro c
  have hinit : lcdInitOps = [.wait .poweron] ++ lcdCommandOps (3#4 ++ 3#4) ++ lcdCommandOps (3#4 ++ 2#4) ++
      lcdCommandOps (2#4 ++ 8#4) ++ lcdCommandOps (0#4 ++ 0xC#4) ++ lcdCommandOps (0#4 ++ 6#4) ++ lcdClearOps := rfl
  simp only [hinit, List.flatMap_append, flatMap_expand_lcdCommandOps, flatMap_expand_lcdClearOps]
  rfl

/-! Whole operations. -/

/-- Until its last micro-step a loaded block is busy (10_state R35). -/
theorem run_load_within {s : State} {ms : List MicroAction} {k : Nat} (hk : k < ms.length) (hq : Quiet ms.length s) :
    ∃ v, run k (s.load ms) = .next v ∧ v.busy = true ∧ v.ready = false := by
  have hrun := run_within (s := s.load ms) k hk rfl rfl (quiet_mono hq hk.le)
  obtain ⟨-, -, hbusy, -⟩ := State.performAll_frame (ms.take k) (s.load ms)
  have hv : (State.resume (ms.drop k) ((s.load ms).resetIn.drop k) (State.performAll (ms.take k) (s.load ms))).busy = true :=
    hbusy
  exact ⟨_, hrun, hv, by rw [State.ready, hv]; rfl⟩

/-- Settles O29: the run of every operation, which is busy until its last micro-step. -/
theorem everyOperationCompletes : Obligations.EveryOperationCompletes := by
  intro i s hr hq
  obtain ⟨t, u, hexec, hload, hrun, hdone, htrace, hresult, hexit⟩ := exec_run_of_levels hr hq rfl
  refine ⟨t, u, hexec, hload, fun m hm => ?_, hrun, hdone, ?_, htrace, hresult, hexit⟩
  · obtain rfl := Host.Outcome.next.inj ((exec_of_ready hr i).symm.trans hexec)
    rw [← length_expand s.config i] at hm hq
    exact run_load_within hm hq
  · obtain ⟨-, hmark⟩ := (State.ready_iff s).1 hr
    exact (State.ready_iff u).2 ⟨hdone.idle, hdone.refusal.trans hmark⟩

/-- An expansion reads DEV_ADDR7, BACKLIGHT and the bit map alone of the configuration. -/
theorem expand_congr {c c' : Config} (i : Instr) (ha : c.devAddr7 = c'.devAddr7) (hb : c.backlight = c'.backlight)
    (hm : c.bitMap = c'.bitMap) : expand c i = expand c' i := by
  have hpulse (n : Nibble) (rs : Bit) : pulseSeq c n rs = pulseSeq c' n rs := by
    simp only [pulseSeq, addrByte, tb, blv, blMask, enMask, rsMask, ha, hb, hm]
  cases i with
  | lcdPulse n rs => exact hpulse n rs
  | lcdCmd d | lcdData d => simp only [expand, sendSeq, hpulse]
  | _ => rfl

/-- Settles O30: the events of a run are the actions of the expansion, and both blocks have one expansion. -/
theorem framingIgnoresBusAndHistory : Obligations.FramingIgnoresBusAndHistory := by
  intro i s s' ha hb hm hr hr' hq hq'
  obtain ⟨t, u, hexec, -, hrun, -, htrace, -⟩ := exec_run hr hq
  obtain ⟨t', u', hexec', -, hrun', -, htrace', -⟩ := exec_run hr' hq'
  refine ⟨t, u, _, t', u', _, hexec, hrun, htrace, hexec', hrun', htrace', ?_⟩
  rw [eventsOf_action, eventsOf_action, expand_congr i ha hb hm]

/-! Streams of words: each word takes one step to be accepted and its micro-steps to run. -/

/-- The steps a ready block takes to run a stream of operations. -/
def stepCount (is : List Instr) : Nat := (is.map fun i => microCount i + 1).sum

/-- What a ready block that was given the words of the operations `is`, from the state `s`, leaves in `u`, in which the words of
the stream `rest` are still to come. -/
structure StreamRun (is : List Instr) (rest : List Word) (s u : State) : Prop where
  ready : u.ready = true
  stream : u.stream = rest
  config : u.config = s.config
  resetIn : u.resetIn = s.resetIn.drop (stepCount is)
  latches : u.latches = is.foldl exitLatches s.latches
  trace : u.trace = s.trace ++ eventsOf (is.flatMap (expand s.config)) (s.comingLevels (is.map sampleCount).sum)
  busIn : u.busIn = s.busIn.drop (is.map sampleCount).sum
  draws : u.draws = s.draws + (is.map sampleCount).sum

/-- One word: its accept and its run, which leaves RESULT by its own samples. -/
theorem run_word {s : State} {i : Instr} {rest : List Word} (hr : s.ready = true) (hq : Quiet (microCount i + 1) s)
    (hs : s.stream = encode i :: rest) :
    ∃ u, run (microCount i + 1) s = .next u ∧ StreamRun [i] rest s u ∧
      u.result = packResult (s.comingLevels (sampleCount i)) := by
  obtain ⟨hb, hmark⟩ := (State.ready_iff s).1 hr
  have hready : s.tick.takeWord.ready = true := (State.ready_iff _).2 ⟨hb, hmark⟩
  obtain ⟨t, u, hexec, -, hrun, hdone, htrace, hexit⟩ :=
    exec_run (i := i) (s := s.tick.takeWord) hready (quiet_later hq rfl)
  have hstep : step s = .next t := (step_of_legal (quiet_now hq) hb hmark hs (decode_encode i)).trans hexec
  have hlevels : s.tick.takeWord.comingLevels (sampleCount i) = s.comingLevels (sampleCount i) :=
    State.comingLevels_congr _ rfl rfl
  rw [hlevels] at htrace
  refine ⟨u, (run_succ _ _ _ hstep).trans hrun, ?_, hdone.result.trans (congrArg packResult hlevels)⟩
  exact
    { ready := (State.ready_iff u).2 ⟨hdone.idle, hdone.refusal.trans hmark⟩
      stream := hdone.stream.trans (congrArg List.tail hs)
      config := hdone.config
      resetIn := by simp [hdone.resetIn, stepCount]
      latches := hexit
      trace := by simpa using htrace
      busIn := by simp [hdone.busIn]
      draws := by simp [hdone.draws] }

theorem comingLevels_add (a b : Nat) {s u : State} (hb : u.busIn = s.busIn.drop a) (hd : u.draws = s.draws + a) :
    s.comingLevels (a + b) = s.comingLevels a ++ u.comingLevels b := by
  induction a generalizing s with
  | zero => simpa [State.comingLevels] using State.comingLevels_congr b (by simpa using hb.symm) (by simpa using hd.symm)
  | succ a ih =>
    rw [Nat.add_right_comm, State.comingLevels, State.comingLevels, List.cons_append,
      ih (by simpa using hb) (by simp [hd]; omega)]

theorem quiet_drop {a b : Nat} {s t : State} (h : Quiet (a + b) s) (ht : t.resetIn = s.resetIn.drop a) : Quiet b t := by
  intro v hv
  rw [ht, List.take_drop] at hv
  exact h v (List.mem_of_mem_drop hv)

@[simp] theorem stepCount_append (is js : List Instr) : stepCount (is ++ js) = stepCount is + stepCount js := by
  simp [stepCount]

/-- A stream after a stream. -/
theorem StreamRun.append {is js : List Instr} {mid rest : List Word} {s t u : State} (h : StreamRun is mid s t)
    (h' : StreamRun js rest t u) : StreamRun (is ++ js) rest s u where
  ready := h'.ready
  stream := h'.stream
  config := h'.config.trans h.config
  resetIn := by simp [h'.resetIn, h.resetIn]
  latches := by rw [h'.latches, h.latches, List.foldl_append]
  trace := by
    have hsamples := samplesIn_flatMap_expand s.config is
    have hlength : (s.comingLevels (is.map sampleCount).sum).length = samplesIn (is.flatMap (expand s.config)) :=
      (State.comingLevels_length _ s).trans hsamples.symm
    rw [h'.trace, h.trace, h.config, List.flatMap_append, List.map_append, List.sum_append,
      comingLevels_add _ _ h.busIn h.draws, eventsOf_append, eventsOf_append_levels _ _ _ hlength, ← hlength, List.drop_left,
      List.append_assoc]
  busIn := by simp [h'.busIn, h.busIn]
  draws := by simp [h'.draws, h.draws, Nat.add_assoc]

/-- A ready block runs the words of a stream of operations one after the other. -/
theorem run_stream (is : List Instr) {s : State} {rest : List Word} (hr : s.ready = true) (hq : Quiet (stepCount is) s)
    (hs : s.stream = is.map encode ++ rest) : ∃ u, run (stepCount is) s = .next u ∧ StreamRun is rest s u := by
  induction is generalizing s with
  | nil => exact ⟨s, rfl, hr, hs, rfl, rfl, rfl, (List.append_nil _).symm, rfl, rfl⟩
  | cons i is ih =>
    have hcount : stepCount (i :: is) = microCount i + 1 + stepCount is := by simp [stepCount]
    rw [hcount] at hq ⊢
    obtain ⟨t, hrun, hword, -⟩ := run_word hr (quiet_mono hq (Nat.le_add_right _ _)) hs
    obtain ⟨u, hrun', hrest⟩ := ih hword.ready (quiet_drop hq hword.resetIn) hword.stream
    exact ⟨u, (run_add _ _ _ _ hrun).trans hrun', hword.append hrest⟩

/-- Settles O31: both streams have one micro-sequence, and so one trace and one pair of latches; the last word of each leaves its
own RESULT. -/
theorem rawWordsEqualOnePulse : Obligations.RawWordsEqualOnePulse := by
  intro n rs s hr hq raw
  obtain ⟨u, hrun, hpulse, hresult⟩ :=
    run_word (s := { s with stream := [encode (.lcdPulse n rs)] }) (i := .lcdPulse n rs) hr
      (quiet_mono hq (Nat.le_of_ble_eq_true rfl)) rfl
  obtain ⟨t, hrun₁, hbytes⟩ :=
    run_stream raw.dropLast (s := { s with stream := raw.map encode }) (rest := [encode .i2cStop]) hr
      (quiet_mono hq (Nat.le_of_ble_eq_true rfl)) rfl
  obtain ⟨v, hrun₂, hstop, hresult'⟩ :=
    run_word (i := .i2cStop) hbytes.ready (quiet_drop (b := 8) hq hbytes.resetIn) hbytes.stream
  have hraw := hbytes.append hstop
  have hlevels (ws : List Word) : State.comingLevels 3 { s with stream := ws } = s.comingLevels 3 :=
    State.comingLevels_congr 3 rfl rfl
  have hseq : raw.flatMap (expand s.config) = pulseSeq s.config n rs := by
    simp [raw, pulseSeq, expand, waitSeq]
  refine ⟨u, v, hrun, (run_add _ _ _ _ hrun₁).trans hrun₂, ?_, hpulse.latches.trans hraw.latches.symm, hpulse.stream,
    hraw.stream, hpulse.ready, hraw.ready, ?_, hresult'.trans packResult_nil⟩
  · have hu : u.trace = s.trace ++ eventsOf (pulseSeq s.config n rs) (s.comingLevels 3) := by
      rw [hpulse.trace, ← hlevels]
      exact congrArg (s.trace ++ eventsOf · _) (List.append_nil _)
    have hv : v.trace = s.trace ++ eventsOf (raw.flatMap (expand s.config)) (s.comingLevels 3) := by
      rw [← hlevels]
      exact hraw.trace
    rw [hu, hv, hseq]
  · rw [hresult, ← hlevels]
    exact resultSays_packResult (Nat.le_of_ble_eq_true rfl)

end Sys2Proof.Machine
end

section
/-! PROOFS. The host layer: every form of the assembler in numbers, and the duties that programs of pseudo-instructions keep. -/

namespace Sys2Proof.Machine

open Sys2Proof.Safety

/-! The assembler (30_encoding R72). -/

theorem encode_eq_ofNat (i : Instr) : encode i = BitVec.ofNat 16 i.code := by
  rw [← toNat_encode, BitVec.ofNat_toNat, BitVec.setWidth_eq]

/-- A well-formed line of one operation gives the operation's number. -/
theorem assemble_single {l : AsmLine} {i : Instr} (h : l.wellFormed = true) (hi : AsmLine.operations l = [i]) :
    assemble l = some [BitVec.ofNat 16 i.code] := by
  rw [assemble_of_wellFormed h, hi, List.map_singleton, encode_eq_ofNat]

theorem legal_encode (i : Instr) : legal (encode i) = true := (legal_iff _).2 ⟨i, decode_encode i⟩

/-- A bit operand that fits is the number it stands for. -/
theorem toNat_beq_one {b : Nat} (hb : b < 2) : (b == 1).toNat = b := by
  obtain rfl | rfl : b = 0 ∨ b = 1 := by omega
  · rfl
  · rfl

theorem toNat_ofNat_of_lt {n d : Nat} (h : d < 2 ^ n) : (BitVec.ofNat n d).toNat = d := by
  rw [BitVec.toNat_ofNat, Nat.mod_eq_of_lt h]

/-- A form `f` whose one operand is a byte: its words for every operand in range, an error for every other. -/
theorem assemble_byteForm {f : Nat → AsmLine} {op : Byte → Instr} {base : Nat}
    (hwf : ∀ d, (f d).wellFormed = decide (d < 256)) (hops : ∀ d, AsmLine.operations (f d) = [op (BitVec.ofNat 8 d)])
    (hcode : ∀ b, (op b).code = base + b.toNat) (d : Nat) :
    (d < 256 → assemble (f d) = some [BitVec.ofNat 16 (base + d)]) ∧ (256 ≤ d → assemble (f d) = none) := by
  refine ⟨fun hd => ?_, fun hd => assemble_eq_none ((hwf d).trans (decide_eq_false (Nat.not_lt.2 hd)))⟩
  rw [assemble_single ((hwf d).trans (decide_eq_true hd)) (hops d), hcode, toNat_ofNat_of_lt hd]

/-- Settles O52: a form of one operation gives the number of that operation, and every word is the word of an operation. -/
theorem assemblerNeverTruncates : Obligations.AssemblerNeverTruncates := by
  refine ⟨rfl, rfl, rfl, fun b => ⟨fun hb => ?_, fun hb => assemble_eq_none ?_⟩,
    assemble_byteForm (fun _ => rfl) (fun _ => rfl) fun _ => rfl,
    fun n rs => ⟨fun hn hrs => ?_, fun hout => assemble_eq_none ?_⟩,
    assemble_byteForm (fun _ => rfl) (fun _ => rfl) fun _ => rfl,
    assemble_byteForm (fun _ => rfl) (fun _ => rfl) fun _ => rfl,
    rfl, rfl, rfl, rfl, rfl, fun c hc => assemble_eq_none ?_, fun s hs => assemble_eq_none ?_,
    fun l => ⟨assemble_eq_none, fun hl => ?_⟩⟩
  · rw [assemble_single (l := .i2cWbit b) (decide_eq_true hb) rfl, Instr.code, toNat_beq_one hb]
  · exact decide_eq_false (Nat.not_lt.2 hb)
  · have hwf : (AsmLine.lcdPulse n rs).wellFormed = true := by simp [AsmLine.wellFormed, hn, hrs]
    rw [assemble_single hwf rfl, Instr.code, toNat_ofNat_of_lt hn, toNat_beq_one hrs]
  · simp only [AsmLine.wellFormed, Bool.and_eq_false_iff, decide_eq_false_iff_not]
    omega
  · exact decide_eq_false (Nat.not_lt.2 hc)
  · obtain ⟨ch, hmem, hch⟩ := hs
    rw [Bool.eq_false_iff, Ne, wellFormed_lcdPrint]
    exact fun hall => Nat.not_lt.2 hch (hall ch hmem)
  · refine ⟨_, assemble_of_wellFormed hl, fun w hw => ?_⟩
    obtain ⟨i, -, rfl⟩ := List.mem_map.1 hw
    exact legal_encode i

/-! Streams of LCD commands, LCD data and waits, which is what pseudo-instructions expand to (43_lcd_command_interface). -/

/-- An operation a pseudo-instruction can expand to. -/
def isSendOrWait : Instr → Bool
  | .lcdCmd _ => true
  | .lcdData _ => true
  | .wait _ => true
  | _ => false

/-- Such a stream uses no bit operation, no write bit and no bare pulse, so it keeps the duties about these. -/
theorem sendsAndWaits_keep_duties {is : List Instr} (h : ∀ i ∈ is, isSendOrWait i = true) :
    bitOpsInside false is = true ∧ ackAfterEightBits 0 is = true ∧ pulsesPaired false is = true := by
  induction is with
  | nil => exact ⟨rfl, rfl, rfl⟩
  | cons i is ih =>
    obtain ⟨hi, his⟩ := List.forall_mem_cons.1 h
    cases i with
    | lcdCmd d | lcdData d | wait k => exact ih his
    | _ => cases hi

/-- The pseudo-instructions, none of them an ordinary command of the clear class (70_reset_and_hazards R203). -/
def AsmLine.isOrdinaryPseudo : AsmLine → Prop
  | .lcdCommand x => x ≠ 1 ∧ x ≠ 2 ∧ x ≠ 3
  | .lcdClear => True
  | .lcdInit => True
  | .lcdSetCursor _ _ => True
  | .lcdPrint _ => True
  | _ => False

theorem clearClass_ofNat {n : Nat} (hn : n < 256) : clearClass (BitVec.ofNat 8 n) = true ↔ n = 1 ∨ n = 2 ∨ n = 3 := by
  have hbyte (k : Nat) (hk : k < 256) : BitVec.ofNat 8 n = BitVec.ofNat 8 k ↔ n = k := by
    rw [← BitVec.toNat_inj, toNat_ofNat_of_lt hn, toNat_ofNat_of_lt hk]
  simp only [clearClass, Bool.or_eq_true, beq_iff_eq, hbyte 1 (by decide), hbyte 2 (by decide), hbyte 3 (by decide), or_assoc]

/-- What a line of such a program expands to: the bring-up, a clear with its wait, a command outside the clear class with its
wait, or data bytes. -/
inductive OrdinaryOps : List Instr → Prop where
  | init : OrdinaryOps lcdInitOps
  | clear : OrdinaryOps lcdClearOps
  | command (d : Byte) (h : clearClass d = false) : OrdinaryOps (lcdCommandOps d)
  | print (s : List Byte) : OrdinaryOps (lcdPrintOps s)

theorem ordinaryOps_of_pseudo {l : AsmLine} (hwf : l.wellFormed = true) (h : AsmLine.isOrdinaryPseudo l) :
    OrdinaryOps (AsmLine.operations l) := by
  cases l with
  | lcdCommand x =>
    refine .command _ (Bool.eq_false_iff.2 fun hclass => ?_)
    obtain ⟨h1, h2, h3⟩ := h
    have := (clearClass_ofNat (of_decide_eq_true hwf)).1 hclass
    omega
  | lcdSetCursor row col =>
    refine .command _ (Bool.eq_false_iff.2 fun hclass => ?_)
    have hcol : col < 64 := ((wellFormed_lcdSetCursor row col).1 hwf).2
    have hbase : 0x80 ≤ cursorBase row := by unfold cursorBase; split <;> omega
    have := (clearClass_ofNat (cursorBase_add_lt row hcol)).1 hclass
    omega
  | lcdClear => exact .clear
  | lcdInit => exact .init
  | lcdPrint s => exact .print _
  | _ => exact h.elim

theorem isSendOrWait_of_ordinaryOps {ops : List Instr} (h : OrdinaryOps ops) : ∀ i ∈ ops, isSendOrWait i = true := by
  cases h with
  | init => decide
  | clear => decide
  | command d _ => exact fun i hi => by simp [lcdCommandOps] at hi; obtain rfl | rfl := hi <;> rfl
  | print s =>
    intro i hi
    obtain ⟨b, -, rfl⟩ := List.mem_map.1 hi
    rfl

/-! The wait after a command of the clear class (70_reset_and_hazards R199, R203). -/

theorem highNibble_append_lowNibble (d : Byte) : highNibble d ++ lowNibble d = d := by
  revert d
  decide

/-- From a byte boundary with no time owed, a command of the clear class owes T_CLEAR, any other command nothing. -/
theorem clearWaited_lcdCmd (c : Config) (d : Byte) (is : List Instr) :
    clearWaited c none 0 (.lcdCmd d :: is) = clearWaited c none (if clearClass d then c.tClear else 0) is := by
  simp only [clearWaited, pulsesOf, afterPulses, sendsClearClass, highNibble_append_lowNibble, ite_self, if_true, and_true]
  split <;> rfl

theorem clearWaited_lcdData (c : Config) (d : Byte) (is : List Instr) :
    clearWaited c none 0 (.lcdData d :: is) = clearWaited c none 0 is := by
  simp [clearWaited, pulsesOf, afterPulses, sendsClearClass]

theorem clearWaited_wait (c : Config) (k : DelayClass) (owed : Nat) (is : List Instr) :
    clearWaited c none owed (.wait k :: is) = clearWaited c none (owed - c.duration k) is := by
  simp [clearWaited, pulsesOf, minDuration]

theorem clearWaited_lcdCommandOps (c : Config) {d : Byte} (hd : clearClass d = false) (is : List Instr) :
    clearWaited c none 0 (lcdCommandOps d ++ is) = clearWaited c none 0 is := by
  simp [lcdCommandOps, clearWaited_lcdCmd, clearWaited_wait, hd]

theorem clearWaited_lcdClearOps (c : Config) (is : List Instr) :
    clearWaited c none 0 (lcdClearOps ++ is) = clearWaited c none 0 is := by
  simp [lcdClearOps, clearWaited_lcdCmd, clearWaited_wait, Config.duration, clearClass]

theorem clearWaited_lcdPrintOps (c : Config) (s : List Byte) (is : List Instr) :
    clearWaited c none 0 (lcdPrintOps s ++ is) = clearWaited c none 0 is := by
  induction s with
  | nil => rfl
  | cons b s ih => exact (clearWaited_lcdData c b _).trans ih

theorem clearWaited_lcdInitOps (c : Config) (is : List Instr) :
    clearWaited c none 0 (lcdInitOps ++ is) = clearWaited c none 0 is := by
  have hpoweron (is : List Instr) : clearWaited c none 0 ([.wait .poweron] ++ is) = clearWaited c none 0 is := by
    rw [List.singleton_append, clearWaited_wait, Nat.zero_sub]
  simp only [lcdInitOps, List.append_assoc]
  rw [hpoweron, clearWaited_lcdCommandOps c rfl, clearWaited_lcdCommandOps c rfl, clearWaited_lcdCommandOps c rfl,
    clearWaited_lcdCommandOps c rfl, clearWaited_lcdCommandOps c rfl, clearWaited_lcdClearOps]

/-- Every line of such a program begins and ends on a byte boundary with no time owed. -/
theorem clearWaited_ordinaryOps (c : Config) {ops : List Instr} (h : OrdinaryOps ops) (is : List Instr) :
    clearWaited c none 0 (ops ++ is) = clearWaited c none 0 is := by
  cases h with
  | init => exact clearWaited_lcdInitOps c is
  | clear => exact clearWaited_lcdClearOps c is
  | command d hd => exact clearWaited_lcdCommandOps c hd is
  | print s => exact clearWaited_lcdPrintOps c s is

theorem clearWaited_flatMap (c : Config) {ls : List AsmLine} (h : ∀ l ∈ ls, OrdinaryOps (AsmLine.operations l)) :
    clearWaited c none 0 (ls.flatMap AsmLine.operations) = true := by
  induction ls with
  | nil => rfl
  | cons l ls ih =>
    obtain ⟨hl, hls⟩ := List.forall_mem_cons.1 h
    rw [List.flatMap_cons, clearWaited_ordinaryOps c hl, ih hls]

/-- Any pulse while time is owed breaks the duty. -/
theorem clearWaited_owed (c : Config) (half : Option Nibble) {owed : Nat} {i : Instr} (is : List Instr) (howed : owed ≠ 0)
    (hi : pulsesOf i ≠ []) : clearWaited c half owed (i :: is) = false := by
  obtain ⟨p, ps, hp⟩ := List.exists_cons_of_ne_nil hi
  simp [clearWaited, hp, afterPulses, howed]

/-- A command of the clear class owes T_CLEAR in every nibble phase, so that an operation with a pulse right after it comes too
early. -/
theorem clearWaited_clear_then_pulse (c : Config) (half : Option Nibble) (owed : Nat) {d : Byte} {i : Instr} (is : List Instr)
    (hd : clearClass d = true) (hc : c.tClear ≠ 0) (hi : pulsesOf i ≠ []) :
    clearWaited c half owed (.lcdCmd d :: i :: is) = false := by
  rw [clearWaited]
  simp only [pulsesOf, sendsClearClass, hd, if_true]
  split
  · rfl
  · exact clearWaited_owed c _ is hc hi

/-- Settles O54: by the lines of the program, by the pulse that comes while T_CLEAR is owed, and by the wait that pays it. -/
theorem pseudoInstructionsKeepDuties : Obligations.PseudoInstructionsKeepDuties := by
  refine ⟨?_, ?_, fun c d x => ?_⟩
  · intro c ls h is
    have hops : ∀ l ∈ ls, OrdinaryOps (AsmLine.operations l) := fun l hl => ordinaryOps_of_pseudo (h l hl).1 (h l hl).2
    have hkind : ∀ i ∈ is, isSendOrWait i = true := fun i hi => by
      obtain ⟨l, hl, hmem⟩ := List.mem_flatMap.1 hi
      exact isSendOrWait_of_ordinaryOps (hops l hl) i hmem
    obtain ⟨hinside, hack, hpaired⟩ := sendsAndWaits_keep_duties hkind
    refine ⟨hinside, hack, hpaired, clearWaited_flatMap c hops, fun hhead => ?_⟩
    obtain ⟨rest, rfl⟩ := List.head?_eq_some_iff.1 hhead
    exact List.isPrefixOf_iff_prefix.2 (List.prefix_append _ _)
  · intro c half owed d i is hd hc hi
    refine clearWaited_clear_then_pulse c half owed is ?_ hc.ne' ?_
    · obtain rfl | rfl | rfl := hd <;> rfl
    · cases i with
      | lcdPulse n rs | lcdCmd d | lcdData d => exact List.cons_ne_nil _ _
      | _ => cases hi
  · have hpaid : (if clearClass d then c.tClear else 0) - c.duration .clear = 0 := by
      split <;> simp [Config.duration]
    rw [clearWaited_lcdCmd, clearWaited_wait, hpaid, clearWaited_lcdData]
    rfl

end Sys2Proof.Machine
end

section
/-! PROOFS. The reference device (60_exceptions R184; log entry 9): what it makes of each operation of a program, what it receives
of a send and of an extra pulse, how LCD_INIT recovers it, and the wait it sees after every clear. -/

namespace Sys2Proof.Machine

open Sys2Proof.Safety

/-- The device is idle at the block's address, on the block's map, the bus released: where it stands between LCD operations. -/
structure Device.AtRest (c : Config) (d : Device) : Prop where
  address : d.address = c.devAddr7
  bitMap : d.bitMap = c.bitMap
  scl : d.scl = true
  sda : d.sda = true
  phase : d.phase = .idle

/-- The device after an operation. It does not look at what was sampled. -/
def Device.after (c : Config) (d : Device) (i : Instr) : Device := d.watch (eventsOf (expand c i) [])

theorem Device.watch_expand (c : Config) (d : Device) (i : Instr) (levels : List Bit) :
    d.watch (eventsOf (expand c i) levels) = d.after c i := Device.watch_eventsOf_congr d _ levels []

/-- The device after a stream of operations. -/
theorem Device.watch_flatMap_expand (c : Config) (d : Device) (is : List Instr) (levels : List Bit) :
    d.watch (eventsOf (is.flatMap (expand c)) levels) = is.foldl (Device.after c) d := by
  induction is generalizing d levels with
  | nil => rfl
  | cons i is ih => rw [List.flatMap_cons, eventsOf_append, Device.watch_append, Device.watch_expand, ih, List.foldl_cons]

theorem Device.after_wait (c : Config) (d : Device) {k : DelayClass} (hk : k ≠ .poweron) : d.after c (.wait k) = d :=
  Device.watch_delay d k hk

theorem Device.after_poweron (c : Config) (d : Device) : d.after c (.wait .poweron) = { d with bringUp := bringUpNibbles } :=
  Device.watch_poweron d

theorem Device.AtRest.poweron {c : Config} {d : Device} (h : d.AtRest c) : (d.after c (.wait .poweron)).AtRest c :=
  ⟨h.address, h.bitMap, h.scl, h.sda, h.phase⟩

/-- The operation sends the byte `b` with the register select `rs` (42_lcd_transport R132, R134). -/
inductive Sends : Instr → Byte → Bit → Prop where
  | command (b : Byte) : Sends (.lcdCmd b) b false
  | data (b : Byte) : Sends (.lcdData b) b true

theorem Sends.expand_eq {i : Instr} {b : Byte} {rs : Bit} (h : Sends i b rs) (c : Config) :
    expand c i = sendSeq c b rs := by
  cases h <;> rfl

/-- What two nibbles latched one after the other make of the controller, in `t`. -/
structure Device.TookByte (d : Device) (b : Byte) (rs : Bit) (t : Device) : Prop where
  interface : t.interface = ((d.latch (highNibble b) rs).latch (lowNibble b) rs).interface
  bringUp : t.bringUp = bringUpAfter (bringUpAfter d.bringUp (highNibble b) rs) (lowNibble b) rs
  strobes : t.strobes = d.strobes + 2
  received : t.received = ((d.latch (highNibble b) rs).latch (lowNibble b) rs).received

/-- After a send the device is at rest again, and its controller has taken the two nibbles. -/
theorem Device.after_send {c : Config} {d : Device} {i : Instr} {b : Byte} {rs : Bit} (hl : c.bitMap.Legal)
    (h : d.AtRest c) (hi : Sends i b rs) : (d.after c i).AtRest c ∧ d.TookByte b rs (d.after c i) := by
  obtain ⟨sh, po, hafter⟩ := Device.watch_send c b rs d [] hl h.address h.bitMap h.scl h.sda h.phase
  rw [Device.after, hi.expand_eq, hafter]
  exact ⟨⟨h.address, h.bitMap, h.scl, h.sda, rfl⟩, rfl, rfl, rfl, rfl⟩

/-- At rest and on a byte boundary: what every line of a program finds and leaves. -/
structure Device.AtBoundary (c : Config) (d : Device) : Prop where
  atRest : d.AtRest c
  onBoundary : d.OnByteBoundary

/-- On a byte boundary a send is one received byte, and ends on a byte boundary. -/
theorem Device.AtBoundary.after_send {c : Config} {d : Device} {i : Instr} {b : Byte} {rs : Bit} (hl : c.bitMap.Legal)
    (h : d.AtBoundary c) (hi : Sends i b rs) :
    (d.after c i).AtBoundary c ∧ (d.after c i).strobes = d.strobes + 2 ∧
    (d.after c i).received = d.received ++ [{ rs := rs, byte := b }] := by
  obtain ⟨hrest, htook⟩ := Device.after_send hl h.atRest hi
  obtain ⟨hlatched, hboundary, -⟩ := Device.latch_byte d b rs h.onBoundary
  have heven := bringUpAfter_even d.bringUp (highNibble b) (lowNibble b) rs h.onBoundary.2
  exact ⟨⟨hrest, htook.interface.trans hboundary, htook.bringUp ▸ heven⟩, htook.strobes,
    htook.received.trans (by rw [hlatched])⟩

theorem Device.AtRest.levelsFor_pulse {c : Config} {d : Device} (hl : c.bitMap.Legal) (h : d.AtRest c) (n : Nibble) (rs : Bit) :
    d.levelsFor (pulseSeq c n rs) = List.replicate 3 false :=
  Device.levelsFor_pulse c n rs d hl h.address h.bitMap h.scl h.sda h.phase

/-- After a pulse the device is at rest again, and its controller has latched the nibble. -/
theorem Device.after_pulse {c : Config} {d : Device} (hl : c.bitMap.Legal) (h : d.AtRest c) (n : Nibble) (rs : Bit) :
    (d.after c (.lcdPulse n rs)).AtRest c ∧ (d.after c (.lcdPulse n rs)).interface = (d.latch n rs).interface ∧
    (d.after c (.lcdPulse n rs)).received = (d.latch n rs).received := by
  obtain ⟨sh, hafter⟩ := Device.watch_pulse c n rs d [] hl h.address h.bitMap h.scl h.sda h.phase
  rw [Device.after, expand, hafter]
  exact ⟨⟨h.address, h.bitMap, h.scl, h.sda, rfl⟩, rfl, rfl⟩

/-- A device at rest acknowledges all six bytes of a send. -/
theorem Device.levelsFor_send {c : Config} {d : Device} (hl : c.bitMap.Legal) (h : d.AtRest c) (b : Byte) (rs : Bit) :
    d.levelsFor (sendSeq c b rs) = List.replicate 6 false := by
  obtain ⟨hmid, -⟩ := Device.after_pulse hl h (highNibble b) rs
  rw [sendSeq, Device.levelsFor_append _ _ _ [], h.levelsFor_pulse hl]
  exact congrArg _ (hmid.levelsFor_pulse hl (lowNibble b) rs)

/-- Settles O57: the device acknowledges each byte, and what it takes from the events of the run are the two nibbles. -/
theorem deviceReceivesByteSent : Obligations.DeviceReceivesByteSent := by
  intro i d rs s dev hi hr hq _ hl ha hm h1 h2 hp hd
  have hsends : Sends i d rs := by
    obtain ⟨rfl, rfl⟩ | ⟨rfl, rfl⟩ := hi
    · exact .command d
    · exact .data d
  have hcount : microCount i = 300 ∧ sampleCount i = 6 := by cases hsends <;> exact ⟨rfl, rfl⟩
  have hrest : dev.AtRest s.config := ⟨ha, hm, h1, h2, hp⟩
  refine ⟨by rw [hsends.expand_eq, Device.levelsFor_send hl hrest], fun hlevels => ?_⟩
  rw [← hcount.1] at hq ⊢
  obtain ⟨t, u, hexec, -, hrun, hdone, htrace, -⟩ := exec_run hr hq
  obtain ⟨⟨hafter, hboundary⟩, -, hreceived⟩ := Device.AtBoundary.after_send hl ⟨hrest, hd⟩ hsends
  refine ⟨t, u, _, hexec, hrun, htrace, ?_, ?_⟩
  · rw [hdone.result, hcount.2, hlevels]
    rfl
  · rw [Device.watch_expand]
    exact ⟨hreceived, hboundary, hafter.phase, hafter.scl, hafter.sda⟩

/-! The bring-up (43_lcd_command_interface R154; 70_reset_and_hazards R197). -/

/-- Two nibbles 3 leave an unknown interface unknown, and a known one with a nibble 3 waiting or none. -/
theorem Interface.take_three_twice (it : Interface) :
    ((it.take 3#4 false).1.take 3#4 false).1 = .unknown ∨
    ((it.take 3#4 false).1.take 3#4 false).1 = .fourBit none ∨
    ((it.take 3#4 false).1.take 3#4 false).1 = .fourBit (some 3#4) := by
  rcases it with _ | _ | high
  · exact .inl rfl
  · exact .inr (.inl rfl)
  · exact .inr (.inr rfl)

/-- What the first command of LCD_INIT leaves: two nibbles of the bring-up to come, and in a known interface a nibble 3 waiting or
none. -/
structure Device.HalfBroughtUp (c : Config) (d : Device) : Prop where
  atRest : d.AtRest c
  bringUp : d.bringUp = [3#4, 2#4]
  interface : d.interface = .unknown ∨ d.interface = .fourBit none ∨ d.interface = .fourBit (some 3#4)

theorem Device.after_bringUp_first {c : Config} {d : Device} (hl : c.bitMap.Legal) (h : d.AtRest c)
    (hb : d.bringUp = bringUpNibbles) :
    (d.after c (.lcdCmd 0x33#8)).HalfBroughtUp c ∧ (d.after c (.lcdCmd 0x33#8)).strobes = d.strobes + 2 ∧
    (d.interface = .unknown →
      (d.after c (.lcdCmd 0x33#8)).interface = .unknown ∧ (d.after c (.lcdCmd 0x33#8)).received = d.received) := by
  obtain ⟨hrest, htook⟩ := Device.after_send hl h (.command 0x33#8)
  have hlatched : ((d.latch 3#4 false).latch 3#4 false).interface = ((d.interface.take 3#4 false).1.take 3#4 false).1 := by
    simp [Device.latch, hb, bringUpNibbles, bringUpAfter]
  have hinterface := htook.interface.trans hlatched
  refine ⟨⟨hrest, by rw [htook.bringUp, hb]; rfl, ?_⟩, htook.strobes, fun hi => ⟨by rw [hinterface, hi]; rfl, ?_⟩⟩
  · rw [hinterface]
    exact Interface.take_three_twice d.interface
  · have hnone : ((d.latch 3#4 false).latch 3#4 false).received = d.received := by
      simp [Device.latch, hb, bringUpNibbles, bringUpAfter, hi, Interface.take]
    exact htook.received.trans hnone

/-- The second command of LCD_INIT ends the bring-up: a byte boundary, and no byte of the clear class completed on the way. -/
theorem Device.after_bringUp_second {c : Config} {d : Device} (hl : c.bitMap.Legal) (h : d.HalfBroughtUp c) :
    (d.after c (.lcdCmd 0x32#8)).AtBoundary c ∧ (d.after c (.lcdCmd 0x32#8)).strobes = d.strobes + 2 ∧
    ∃ new, (d.after c (.lcdCmd 0x32#8)).received = d.received ++ new ∧ new.any Received.clearClass = false ∧
      (d.interface = .unknown → new = []) := by
  obtain ⟨hrest, htook⟩ := Device.after_send hl h.atRest (.command 0x32#8)
  have hlatched : ((d.latch 3#4 false).latch 2#4 false).interface = .fourBit none := by
    simp [Device.latch, h.bringUp, bringUpAfter]
  have hreceived : (d.after c (.lcdCmd 0x32#8)).received =
      d.received ++ ((d.interface.take 3#4 false).2 ++ ((d.interface.take 3#4 false).1.take 2#4 false).2) := by
    refine htook.received.trans ?_
    change ((d.latch 3#4 false).latch 2#4 false).received = _
    simp [Device.latch, h.bringUp]
  have hdone : (d.after c (.lcdCmd 0x32#8)).bringUp = [] := by rw [htook.bringUp, h.bringUp]; rfl
  refine ⟨⟨hrest, htook.interface.trans hlatched, by rw [hdone]; rfl⟩, htook.strobes, _, hreceived, ?_, ?_⟩
  · obtain hi | hi | hi := h.interface <;> rw [hi] <;> rfl
  · intro hi
    rw [hi]
    rfl

/-! LCD_INIT. -/

theorem Device.after_lcdCommandOps {c : Config} {d : Device} (b : Byte) :
    (lcdCommandOps b).foldl (Device.after c) d = d.after c (.lcdCmd b) := by
  simp only [lcdCommandOps, List.foldl_cons, List.foldl_nil, Device.after_wait, ne_eq, reduceCtorEq, not_false_eq_true]

theorem Device.after_lcdClearOps {c : Config} {d : Device} :
    lcdClearOps.foldl (Device.after c) d = d.after c (.lcdCmd 0x01#8) := by
  simp only [lcdClearOps, List.foldl_cons, List.foldl_nil, Device.after_wait, ne_eq, reduceCtorEq, not_false_eq_true]

/-- LCD_INIT recovers the device whatever its width and nibble phase were; where the width was unknown it has received the
commands after the bring-up alone. -/
theorem Device.after_lcdInitOps {c : Config} {d : Device} (hl : c.bitMap.Legal) (h : d.AtRest c) :
    (lcdInitOps.foldl (Device.after c) d).AtBoundary c ∧
    (d.interface = .unknown → (lcdInitOps.foldl (Device.after c) d).received =
      d.received ++ [{ rs := false, byte := 0x28#8 }, { rs := false, byte := 0x0C#8 }, { rs := false, byte := 0x06#8 },
        { rs := false, byte := 0x01#8 }]) := by
  simp only [lcdInitOps, List.foldl_append, Device.after_lcdCommandOps, Device.after_lcdClearOps, List.foldl_cons, List.foldl_nil]
  obtain ⟨hhalf, -, hunknown⟩ := Device.after_bringUp_first hl h.poweron rfl
  obtain ⟨hb₀, -, new, hnew, -, hnone⟩ := Device.after_bringUp_second hl hhalf
  obtain ⟨hb₁, -, hr₁⟩ := hb₀.after_send hl (.command 0x28#8)
  obtain ⟨hb₂, -, hr₂⟩ := hb₁.after_send hl (.command 0x0C#8)
  obtain ⟨hb₃, -, hr₃⟩ := hb₂.after_send hl (.command 0x06#8)
  obtain ⟨hb₄, -, hr₄⟩ := hb₃.after_send hl (.command 0x01#8)
  refine ⟨hb₄, fun hi => ?_⟩
  obtain ⟨hstill, hsame⟩ := hunknown hi
  rw [hr₄, hr₃, hr₂, hr₁, hnew, hnone hstill, hsame]
  simp [Device.after_poweron]

/-- Settles O58: a pulse on a byte boundary leaves its nibble waiting; LCD_INIT ends on a boundary. -/
theorem extraPulseShiftsNibblePhase : Obligations.ExtraPulseShiftsNibblePhase := by
  refine ⟨?_, ?_⟩
  · intro n rs s dev hr hq _ hl ha hm h1 h2 hp hd hlevels
    have hrest : dev.AtRest s.config := ⟨ha, hm, h1, h2, hp⟩
    obtain ⟨t, u, hexec, -, hrun, hdone, htrace, -⟩ := exec_run (i := .lcdPulse n rs) hr hq
    obtain ⟨-, hinterface, hreceived⟩ := Device.after_pulse hl hrest n rs
    have hhigh := Device.latch_high dev n rs hd.1 fun hb => by simpa [hb] using hd.2
    refine ⟨t, u, _, hexec, hrun, htrace, ?_, hrest.levelsFor_pulse hl n rs, ?_⟩
    · rw [hdone.result]
      exact congrArg packResult hlevels
    · rw [Device.watch_expand, hinterface, hreceived, hhigh]
      exact ⟨rfl, rfl⟩
  · intro c dev levels hl ha hm h1 h2 hp
    obtain ⟨hboundary, hreceived⟩ := Device.after_lcdInitOps hl (d := dev) ⟨ha, hm, h1, h2, hp⟩
    rw [Device.watch_flatMap_expand]
    exact ⟨hboundary.onBoundary, hreceived⟩

/-! The wait seen on the wires (70_reset_and_hazards R199, R203). -/

theorem clearWaitedOnWire_cons (c : Config) (d : Device) (owed : Nat) (i : Instr) (is : List Instr) :
    clearWaitedOnWire c d owed (i :: is) =
      if (d.after c i).strobes = d.strobes then clearWaitedOnWire c (d.after c i) (owed - minDuration c i) is
      else if (d.after c i).bringUp ≠ [] then owed == 0 && clearWaitedOnWire c (d.after c i) 0 is
      else if (d.after c i).interface = .unknown then false
      else if ((d.after c i).received.drop d.received.length).any Received.clearClass then
        owed == 0 && decide ((d.after c i).interface = .fourBit none) && clearWaitedOnWire c (d.after c i) c.tClear is
      else owed == 0 && clearWaitedOnWire c (d.after c i) 0 is := rfl

/-- An operation that does not strobe the controller counts as time. -/
theorem clearWaitedOnWire_unstrobed {c : Config} {d : Device} {i : Instr} (owed : Nat) (is : List Instr)
    (h : (d.after c i).strobes = d.strobes) :
    clearWaitedOnWire c d owed (i :: is) = clearWaitedOnWire c (d.after c i) (owed - minDuration c i) is := by
  rw [clearWaitedOnWire]
  exact if_pos h

theorem clearWaitedOnWire_wait {c : Config} (d : Device) (owed : Nat) {k : DelayClass} (hk : k ≠ .poweron) (is : List Instr) :
    clearWaitedOnWire c d owed (.wait k :: is) = clearWaitedOnWire c d (owed - c.duration k) is := by
  rw [clearWaitedOnWire_unstrobed owed is (by rw [Device.after_wait c d hk]), Device.after_wait c d hk]
  rfl

/-- In a bring-up strobes owe nothing. -/
theorem clearWaitedOnWire_in_bringUp {c : Config} {d : Device} {i : Instr} (is : List Instr)
    (hstrobed : (d.after c i).strobes ≠ d.strobes) (hb : (d.after c i).bringUp ≠ []) :
    clearWaitedOnWire c d 0 (i :: is) = clearWaitedOnWire c (d.after c i) 0 is := by
  rw [clearWaitedOnWire_cons, if_neg hstrobed]
  exact if_pos hb

/-- An operation that strobes the controller while nothing is owed, and leaves it in 4-bit mode on a byte boundary, owes nothing
but T_CLEAR, and that only where it completed a command of the clear class. -/
theorem clearWaitedOnWire_strobed {c : Config} {d : Device} {i : Instr} {new : List Received} (is : List Instr)
    (hstrobed : (d.after c i).strobes ≠ d.strobes) (hnew : (d.after c i).received = d.received ++ new)
    (hfour : (d.after c i).interface = .fourBit none) :
    clearWaitedOnWire c d 0 (i :: is) = clearWaitedOnWire c (d.after c i) 0 is ∨
    new.any Received.clearClass = true ∧
      clearWaitedOnWire c d 0 (i :: is) = clearWaitedOnWire c (d.after c i) c.tClear is := by
  by_cases hb : (d.after c i).bringUp = []
  · have hdrop : (d.after c i).received.drop d.received.length = new := by rw [hnew, List.drop_left]
    rw [clearWaitedOnWire_cons, if_neg hstrobed, if_neg (not_not.2 hb), hfour, hdrop]
    cases hclass : new.any Received.clearClass with
    | true => exact .inr ⟨rfl, rfl⟩
    | false => exact .inl rfl
  · exact .inl (clearWaitedOnWire_in_bringUp is hstrobed hb)

/-- A send on a byte boundary owes nothing but T_CLEAR, and that only for a command of the clear class. -/
theorem clearWaitedOnWire_send {c : Config} {d : Device} {i : Instr} {b : Byte} {rs : Bit} (is : List Instr) (hl : c.bitMap.Legal)
    (h : d.AtBoundary c) (hi : Sends i b rs) :
    clearWaitedOnWire c d 0 (i :: is) = clearWaitedOnWire c (d.after c i) 0 is ∨
    (rs = false ∧ clearClass b = true) ∧
      clearWaitedOnWire c d 0 (i :: is) = clearWaitedOnWire c (d.after c i) c.tClear is := by
  obtain ⟨hafter, hstrobes, hreceived⟩ := h.after_send hl hi
  have hout := clearWaitedOnWire_strobed is (by omega) hreceived hafter.onBoundary.1
  simpa [Received.clearClass] using hout

/-- From a byte boundary with nothing owed, a stream leads to a byte boundary with nothing owed, the duty kept on the way. -/
def KeepsWait (c : Config) (ops : List Instr) : Prop :=
  ∀ (d : Device) (is : List Instr), d.AtBoundary c →
    ∃ t : Device, t.AtBoundary c ∧ clearWaitedOnWire c d 0 (ops ++ is) = clearWaitedOnWire c t 0 is

theorem KeepsWait.append {c : Config} {a b : List Instr} (ha : KeepsWait c a) (hb : KeepsWait c b) : KeepsWait c (a ++ b) := by
  intro d is hd
  obtain ⟨t, ht, hfirst⟩ := ha d (b ++ is) hd
  obtain ⟨u, hu, hsecond⟩ := hb t is ht
  exact ⟨u, hu, by rw [List.append_assoc, hfirst, hsecond]⟩

/-- Where the command itself leaves nothing owed, neither does the wait after it. -/
theorem clearWaitedOnWire_lcdCommandOps {c : Config} {d : Device} {b : Byte}
    (hsend : ∀ is, clearWaitedOnWire c d 0 (.lcdCmd b :: is) = clearWaitedOnWire c (d.after c (.lcdCmd b)) 0 is)
    (is : List Instr) :
    clearWaitedOnWire c d 0 (lcdCommandOps b ++ is) = clearWaitedOnWire c (d.after c (.lcdCmd b)) 0 is := by
  refine (hsend (.wait .cmd :: is)).trans ?_
  rw [clearWaitedOnWire_wait _ _ (by decide), Nat.zero_sub]

theorem keepsWait_lcdCommandOps {c : Config} (hl : c.bitMap.Legal) {b : Byte} (hb : clearClass b = false) :
    KeepsWait c (lcdCommandOps b) := by
  refine fun d is hd => ⟨_, (hd.after_send hl (.command b)).1, clearWaitedOnWire_lcdCommandOps (fun js => ?_) is⟩
  obtain hsend | ⟨⟨-, hclass⟩, -⟩ := clearWaitedOnWire_send js hl hd (.command b)
  · exact hsend
  · exact absurd (hb.symm.trans hclass) Bool.noConfusion

theorem keepsWait_lcdClearOps {c : Config} (hl : c.bitMap.Legal) : KeepsWait c lcdClearOps := by
  intro d is hd
  refine ⟨_, (hd.after_send hl (.command 0x01#8)).1, ?_⟩
  obtain hsend | ⟨-, hsend⟩ := clearWaitedOnWire_send (.wait .clear :: is) hl hd (.command 0x01#8)
  · refine hsend.trans ?_
    rw [clearWaitedOnWire_wait _ _ (by decide), Nat.zero_sub]
  · refine hsend.trans ?_
    rw [clearWaitedOnWire_wait _ _ (by decide), Config.duration, Nat.sub_self]

theorem keepsWait_lcdPrintOps {c : Config} (hl : c.bitMap.Legal) (s : List Byte) : KeepsWait c (lcdPrintOps s) := by
  induction s with
  | nil => exact fun d is hd => ⟨d, hd, rfl⟩
  | cons b s ih =>
    refine KeepsWait.append (a := [.lcdData b]) (fun d is hd => ⟨_, (hd.after_send hl (.data b)).1, ?_⟩) ih
    obtain hsend | ⟨⟨hrs, -⟩, -⟩ := clearWaitedOnWire_send is hl hd (.data b)
    · exact hsend
    · cases hrs

/-- LCD_INIT keeps the duty whatever the width and the nibble phase it begins in: its bring-up owes nothing, and the commands after
it stand on a byte boundary. -/
theorem clearWaitedOnWire_lcdInitOps {c : Config} {d : Device} (is : List Instr) (hl : c.bitMap.Legal) (h : d.AtRest c) :
    ∃ t : Device, t.AtBoundary c ∧ clearWaitedOnWire c d 0 (lcdInitOps ++ is) = clearWaitedOnWire c t 0 is := by
  obtain ⟨hhalf, hstrobes₁, -⟩ := Device.after_bringUp_first hl h.poweron rfl
  obtain ⟨hb, hstrobes₂, new, hnew, hclass, -⟩ := Device.after_bringUp_second hl hhalf
  have hfirst := clearWaitedOnWire_lcdCommandOps (c := c) fun js =>
    clearWaitedOnWire_in_bringUp (c := c) (d := d.after c (.wait .poweron)) (i := .lcdCmd 0x33#8) js (by omega)
      (by simp [hhalf.bringUp])
  have hsecond := clearWaitedOnWire_lcdCommandOps (c := c) fun js =>
    (clearWaitedOnWire_strobed js (by omega) hnew hb.onBoundary.1).resolve_right
      fun hclear => Bool.noConfusion (hclass.symm.trans hclear.1)
  have hcommands : KeepsWait c (lcdCommandOps 0x28#8 ++ lcdCommandOps 0x0C#8 ++ lcdCommandOps 0x06#8 ++ lcdClearOps) :=
    (((keepsWait_lcdCommandOps hl rfl).append (keepsWait_lcdCommandOps hl rfl)).append
      (keepsWait_lcdCommandOps hl rfl)).append (keepsWait_lcdClearOps hl)
  obtain ⟨t, ht, hrest⟩ := hcommands _ is hb
  refine ⟨t, ht, ?_⟩
  simp only [lcdInitOps, List.append_assoc] at hrest ⊢
  rw [List.singleton_append, clearWaitedOnWire_unstrobed 0 _ rfl, Nat.zero_sub, hfirst, hsecond, hrest]

theorem keepsWait_ordinaryOps {c : Config} (hl : c.bitMap.Legal) {ops : List Instr} (h : OrdinaryOps ops) : KeepsWait c ops := by
  cases h with
  | init => exact fun d is hd => clearWaitedOnWire_lcdInitOps is hl hd.atRest
  | clear => exact keepsWait_lcdClearOps hl
  | command b hb => exact keepsWait_lcdCommandOps hl hb
  | print s => exact keepsWait_lcdPrintOps hl s

/-- A program that begins on a byte boundary keeps the duty line by line. -/
theorem clearWaitedOnWire_flatMap {c : Config} (hl : c.bitMap.Legal) {ls : List AsmLine}
    (h : ∀ l ∈ ls, OrdinaryOps (AsmLine.operations l)) {d : Device} (hd : d.AtBoundary c) :
    clearWaitedOnWire c d 0 (ls.flatMap AsmLine.operations) = true := by
  induction ls generalizing d with
  | nil => rfl
  | cons l ls ih =>
    obtain ⟨hl', hls⟩ := List.forall_mem_cons.1 h
    obtain ⟨t, ht, hline⟩ := keepsWait_ordinaryOps hl hl' d (ls.flatMap AsmLine.operations) hd
    rw [List.flatMap_cons, hline, ih hls ht]

/-- Settles O60: the first line begins on a byte boundary or is LCD_INIT, which leads to one from wherever it begins. -/
theorem pseudoInstructionsWaitOnWire : Obligations.PseudoInstructionsWaitOnWire := by
  intro c dev ls hl ha hm h1 h2 hp hstart h
  have hrest : dev.AtRest c := ⟨ha, hm, h1, h2, hp⟩
  have hops : ∀ l ∈ ls, OrdinaryOps (AsmLine.operations l) := fun l hmem => ordinaryOps_of_pseudo (h l hmem).1 (h l hmem).2
  obtain hd | hinit := hstart
  · exact clearWaitedOnWire_flatMap hl hops ⟨hrest, hd⟩
  · obtain ⟨rest, rfl⟩ := List.head?_eq_some_iff.1 hinit
    obtain ⟨t, ht, hline⟩ := clearWaitedOnWire_lcdInitOps (rest.flatMap AsmLine.operations) hl hrest
    exact hline.trans (clearWaitedOnWire_flatMap hl (List.forall_mem_cons.1 hops).2 ht)

end Sys2Proof.Machine
end
